-- ==== Sys2Proof/Word.lean ====
section
/-! DEFINITION. The value types: bytes and words of the target, and the block's bit sequences and texts. -/

namespace Sys2Proof

/-- A byte of emitted code or of target memory (00_scope R6). -/
abbrev Byte := BitVec 8

/-- A 64-bit register of the target (00_scope R6, 49 R191). -/
abbrev Word := BitVec 64

/-- A finite bit sequence, most significant bit first: the head is position 0 (10_state R37, R40; 92 D11). -/
abbrev BitVector := List Bool

/-- A text is a sequence of characters (00_scope R11). -/
abbrev Text := List Char

end Sys2Proof
end

