-- ==== Sys2Proof/Syntax.lean ====
section
/-! DEFINITION. The operand types, the block's input (descriptors, requests) and the instructions: one constructor of
`Instr` for each row of spec/opcode_table.json. -/

namespace Sys2Proof

/-- The 16 registers, a closed enumeration (10_state R21, R22). -/
inductive Reg
  | rax | rcx | rdx | rbx | rsp | rbp | rsi | rdi
  | r8 | r9 | r10 | r11 | r12 | r13 | r14 | r15
  deriving DecidableEq, Repr

/-- A register's group: `g0` is rax..rdi, `g1` is r8..r15 (10_state R21). -/
inductive Group
  | g0 | g1
  deriving DecidableEq, Repr

/-- The register-register operations (30 R55). -/
inductive AluOp
  | add | sub | cmp
  deriving DecidableEq, Repr

/-- The conditions: equal, not equal, greater, less, greater or equal, less or equal (30 R55). -/
inductive Cond
  | e | ne | g | l | ge | le
  deriving DecidableEq, Repr

/-- The block's input, the closed union of R55. Every combination of operands is a descriptor. -/
inductive Descriptor
  | movImm (dst : Reg) (value : Int)
  | movStore (addr : Reg) (src : Reg)
  | movLoad (dst : Reg) (addr : Reg)
  | alu (op : AluOp) (dst : Reg) (src : Reg)
  | setCC (c : Cond) (r : Reg)
  | ret
  deriving DecidableEq, Repr

/-- The errors an operation can return (60 R215). They carry no payload. -/
inductive EncError
  | outOfRange
  | lengthRequired
  | alignmentError
  | unsupportedImmediateSize
  | invalidHex
  deriving DecidableEq, Repr

/-- What the host can ask of the block (00_scope R5; 92 D31): encode, render, and the operations of 40_bitvector. -/
inductive Request
  | encode (d : Descriptor)
  | render (d : Descriptor)
  | fromBits (bs : List Bool)
  | zeros (n : Nat)
  | len (v : BitVector)
  | fromIntegerLen (v : Int) (n : Nat)
  | fromInteger (v : Int)
  | fromHex (t : Text)
  | fromHexWithOffset (t : Text) (offset : Int)
  | join (vs : List BitVector)
  | slice (v : BitVector) (start stop : Nat)
  | reversedBytes (v : BitVector)
  | toHex (v : BitVector)
  | byteLength (v : BitVector)
  | uint (v : BitVector)
  | equal (v w : BitVector)
  | eqBits (v : BitVector) (t : Text)
  | eqHex (v : BitVector) (t : Text)
  deriving DecidableEq, Repr

/-- The value of an `Ok` answer: a bit sequence, a text, a number or a truth value, as each operation's rule says. -/
inductive Value
  | bits (v : BitVector)
  | text (t : Text)
  | nat (n : Nat)
  | bool (b : Bool)
  deriving DecidableEq, Repr

/-- Every operation returns a value or one error (00_scope R9; 92 D1). -/
abbrev Response := Except EncError Value

/-- The instructions: the 24 output forms of opcode_table.json (30 R83). A memory form names its address register
whole; which registers a form admits is checked in WellFormed. -/
inductive Instr
  /-- F-RI32, R146. -/
  | movImm32 (dst : Reg) (imm : BitVec 32)
  /-- F-OI64, R147. -/
  | movImm64 (dst : Reg) (imm : BitVec 64)
  /-- F-MR-R, R149: the address register's number is neither 4 nor 5. -/
  | store (addr src : Reg)
  /-- F-MR-SIB, R149: rsp or r12. -/
  | storeSib (addr src : Reg)
  /-- F-MR-D8, R149: rbp or r13. -/
  | storeDisp8 (addr src : Reg)
  /-- F-RM-R, R151: the address register's number is neither 4 nor 5. -/
  | load (dst addr : Reg)
  /-- F-RM-SIB, R151: rsp or r12. -/
  | loadSib (dst addr : Reg)
  /-- F-RM-D8, R151: rbp or r13. -/
  | loadDisp8 (dst addr : Reg)
  /-- F-ALU, R166. -/
  | add (dst src : Reg)
  /-- F-ALU, R167. -/
  | sub (dst src : Reg)
  /-- F-ALU, R168. -/
  | cmp (dst src : Reg)
  /-- F-SETCC-0 and F-SETCC-1, R176. -/
  | seteG0 (r : Reg)
  | seteG1 (r : Reg)
  /-- F-SETCC-0 and F-SETCC-1, R177. -/
  | setneG0 (r : Reg)
  | setneG1 (r : Reg)
  /-- F-SETCC-0 and F-SETCC-1, R178. -/
  | setgG0 (r : Reg)
  | setgG1 (r : Reg)
  /-- F-SETCC-0 and F-SETCC-1, R179. -/
  | setlG0 (r : Reg)
  | setlG1 (r : Reg)
  /-- F-SETCC-0 and F-SETCC-1, R180. -/
  | setgeG0 (r : Reg)
  | setgeG1 (r : Reg)
  /-- F-SETCC-0 and F-SETCC-1, R181. -/
  | setleG0 (r : Reg)
  | setleG1 (r : Reg)
  /-- F-RET, R185. -/
  | ret
  deriving DecidableEq, Repr

/-- The second machine instruction of a set-on-condition compound, `[41] 0F 9x 11000nnn`, read on its own
(30 R70, R71, R74; 49 R200, R201): `g1` stands for the REX byte 41. -/
structure SetPart where
  cond : Cond
  group : Group
  number : BitVec 3
  deriving DecidableEq, Repr

end Sys2Proof
end

