-- ==== Sys2Proof/Config.lean ====
section
/-! DEFINITION. The parameters the spec names (93, part 1), at the values it gives them, and the one free value. -/

namespace Sys2Proof.Config

/-- I4: does `fromInteger` follow the source's sketch literally and accept the band `[-2^n, -2^(n-1))`? The spec fixes
`false` (90 C1, 92 D5). -/
def literalNegativeBand : Bool := false

/-- I1: on the target, does a SETcc without REX and with number 4 to 7 write AH, CH, DH, BH? The spec fixes `true`
(49 R201). -/
def setccHighByteQuirk : Bool := true

/-- I9, D33: a bound on the length of the bit sequences the block returns; the spec fixes none. Exceeding one would be a
refusal, never an `EncError`. -/
def maxLen : Option Nat := none

/-- FREE VALUE (49 R204, log entry 10): whether an access based on r12 or r13 counts as SS-based. The spec does not settle
it and asks to admit either fault, so the constant has no body. -/
opaque extendedBaseIsStack : Reg → Bool

end Sys2Proof.Config
end

