-- ==== Sys2Proof/Machine/Bits.lean ====
section
/-! DEFINITION. The BitVector operations (40_bitvector, R85 to R104) and the helpers of the spec (R112, R113), each a pure
function into a value or one error (R105; 00_scope R9). -/

namespace Sys2Proof.Bits

/-- `fromBits(bs)` (R85). -/
def fromBits (bs : List Bool) : BitVector := bs

/-- `zeros(n)` (R86). -/
def zeros (n : Nat) : BitVector := List.replicate n false

/-- `ones(n)`, a helper of the rules (R86). -/
def ones (n : Nat) : BitVector := List.replicate n true

/-- `len(v)` (R87). -/
def len (v : BitVector) : Nat := v.length

/-- The low `n` bits of `v`, most significant first. -/
def pattern : Nat → Nat → BitVector
  | 0, _ => []
  | n + 1, v => v.testBit n :: pattern n v

/-- `nat(v)` for `v >= 0`: the binary digits without a leading zero, one digit for zero (R89; 92 D4). -/
def natural (v : Nat) : BitVector := pattern (v.log2 + 1) v

/-- The range check of a negative value (R91). The source's literal reading is the parameter of 93 I4. -/
def negativeFits (v : Int) (n : Nat) : Bool :=
  if Config.literalNegativeBand then decide (len (natural (-v - 1).toNat) ≤ n)
  else n != 0 && decide (-((2 ^ (n - 1) : Nat) : Int) ≤ v)

/-- `fromInteger(v, n)` (R90 for `v >= 0`, R91 for `v < 0`). -/
def fromIntegerLen (v : Int) (n : Nat) : Except EncError BitVector :=
  if 0 ≤ v then
    let b := natural v.toNat
    if n < len b then .error .outOfRange else .ok (zeros (n - len b) ++ b)
  else if negativeFits v n then
    let c := (natural (-v - 1).toNat).map not
    .ok (ones (n - len c) ++ c)
  else .error .outOfRange

/-- `fromInteger(v)` with no length (R92). -/
def fromInteger (v : Int) : Except EncError BitVector :=
  if v < 0 then .error .lengthRequired else .ok (natural v.toNat)

/-- The hex digit table, both cases (R88; 92 D6). -/
def hexDigit : Char → Option BitVector
  | '0' => some [false, false, false, false]
  | '1' => some [false, false, false, true]
  | '2' => some [false, false, true, false]
  | '3' => some [false, false, true, true]
  | '4' => some [false, true, false, false]
  | '5' => some [false, true, false, true]
  | '6' => some [false, true, true, false]
  | '7' => some [false, true, true, true]
  | '8' => some [true, false, false, false]
  | '9' => some [true, false, false, true]
  | 'A' => some [true, false, true, false]
  | 'a' => some [true, false, true, false]
  | 'B' => some [true, false, true, true]
  | 'b' => some [true, false, true, true]
  | 'C' => some [true, true, false, false]
  | 'c' => some [true, true, false, false]
  | 'D' => some [true, true, false, true]
  | 'd' => some [true, true, false, true]
  | 'E' => some [true, true, true, false]
  | 'e' => some [true, true, true, false]
  | 'F' => some [true, true, true, true]
  | 'f' => some [true, true, true, true]
  | _ => none

/-- The uppercase digit of a value below 16 (R88, R99). -/
def hexUpper (n : Nat) : Char := "0123456789ABCDEF".toList.getD n '0'

/-- A leading `0x` removed, once (R93; 92 D6). -/
def dropHexMarker : Text → Text
  | '0' :: 'x' :: t => t
  | t => t

/-- The digits of a hex text, left to right (R93). -/
def fromHexDigits : Text → Except EncError BitVector
  | [] => .ok []
  | ch :: t =>
    match hexDigit ch with
    | none => .error .invalidHex
    | some p =>
      match fromHexDigits t with
      | .ok out => .ok (p ++ out)
      | .error e => .error e

/-- `fromHex(text)` (R93). -/
def fromHex (t : Text) : Except EncError BitVector := fromHexDigits (dropHexMarker t)

/-- `uint(v)`: the sum of each bit at its weight (R101). -/
def uint : BitVector → Nat
  | [] => 0
  | b :: v => b.toNat * 2 ^ len v + uint v

/-- `nhex(s)`: the hex digits of `s` without a leading zero digit, as bits (R94). -/
def nhex (s : Nat) : BitVector :=
  let b := natural s
  zeros (4 * max 1 ((len b + 3) / 4) - len b) ++ b

/-- `fromHexWithOffset(hex, offset)` (R95). -/
def fromHexWithOffset (hex : Text) (offset : Int) : Except EncError BitVector :=
  match fromHex hex with
  | .error e => .error e
  | .ok b =>
    if len b = 0 then .error .invalidHex
    else if (uint b : Int) + offset < 0 then .error .outOfRange
    else .ok (nhex ((uint b : Int) + offset).toNat)

/-- `join(v1, ..., vk)` (R96). -/
def join (vs : List BitVector) : BitVector := vs.flatten

/-- `slice(v, start, stop)` (R97). -/
def slice (v : BitVector) (start stop : Nat) : Except EncError BitVector :=
  if start ≤ stop ∧ stop ≤ len v then .ok ((v.take stop).drop start) else .error .outOfRange

/-- The first `m` consecutive groups of `k` bits (20 R41). -/
def groups (k : Nat) : Nat → BitVector → List BitVector
  | 0, _ => []
  | m + 1, v => v.take k :: groups k m (v.drop k)

/-- `reversedBytes(v)` (R98). -/
def reversedBytes (v : BitVector) : Except EncError BitVector :=
  if len v % 8 = 0 then .ok (join (groups 8 (len v / 8) v).reverse) else .error .alignmentError

/-- `toHex(v)` (R99). -/
def toHex (v : BitVector) : Except EncError Text :=
  if len v % 4 = 0 then .ok ((groups 4 (len v / 4) v).map fun g => hexUpper (uint g))
  else .error .alignmentError

/-- `byteLength(v)` (R100). -/
def byteLength (v : BitVector) : Except EncError Nat :=
  if len v % 8 = 0 then .ok (len v / 8) else .error .alignmentError

/-- `v == w` (R102). -/
def equal (v w : BitVector) : Bool := decide (v = w)

/-- Space, tab, CR and LF (R103). -/
def isWhite (ch : Char) : Bool := ch == ' ' || ch == '\t' || ch == '\r' || ch == '\n'

/-- A text with every whitespace character removed (R103, R104). -/
def withoutWhite (t : Text) : Text := t.filter fun ch => !isWhite ch

/-- `eqBits(v, s)` (R103). -/
def eqBits (v : BitVector) (s : Text) : Bool :=
  let t := withoutWhite s
  if t.all fun ch => ch == '0' || ch == '1' then equal v (fromBits (t.map fun ch => ch == '1')) else false

/-- `eqHex(v, s)` (R104). -/
def eqHex (v : BitVector) (s : Text) : Bool :=
  match fromHex (withoutWhite s) with
  | .ok w => equal v w
  | .error _ => false

/-- `sint(v)`, the signed reading, a helper of the laws (R112). DESIGN CHOICE (log entry 27): R112 defines it from length 1
on; of the empty vector it is 0 here. -/
def sint : BitVector → Int
  | [] => 0
  | true :: v => (uint (true :: v) : Int) - ((2 ^ len (true :: v) : Nat) : Int)
  | false :: v => (uint (false :: v) : Int)

/-- `bytes(v)`, the byte-sequence view in which the host takes an output (R113; 20 R41, R42). -/
def bytes (v : BitVector) : Except EncError (List Byte) :=
  if len v % 8 = 0 then .ok ((groups 8 (len v / 8) v).map fun g => BitVec.ofNat 8 (uint g))
  else .error .alignmentError

/-- The 8 bits of a byte constant, bit 7 first: the rules' notation `hex"48"` (00_scope R7, R8). -/
def byteBits (b : Byte) : BitVector := pattern 8 b.toNat

end Sys2Proof.Bits
end

