-- ==== Sys2Proof/Machine/Tables.lean ====
section
/-! DEFINITION. The block's constant tables (10_state R21 to R28). They are definitions, constant from the start
(70 R237; 92 D24; log entry 17). -/

namespace Sys2Proof

/-- `group(r)` (10_state R21, R24). -/
def regGroup : Reg → Group
  | .rax | .rcx | .rdx | .rbx | .rsp | .rbp | .rsi | .rdi => .g0
  | .r8 | .r9 | .r10 | .r11 | .r12 | .r13 | .r14 | .r15 => .g1

/-- `number(r)` (10_state R21, R24). -/
def regNumber : Reg → Nat
  | .rax | .r8 => 0
  | .rcx | .r9 => 1
  | .rdx | .r10 => 2
  | .rbx | .r11 => 3
  | .rsp | .r12 => 4
  | .rbp | .r13 => 5
  | .rsi | .r14 => 6
  | .rdi | .r15 => 7

/-- `name(r)` (10_state R21, R24). -/
def regName : Reg → Text
  | .rax => "rax".toList
  | .rcx => "rcx".toList
  | .rdx => "rdx".toList
  | .rbx => "rbx".toList
  | .rsp => "rsp".toList
  | .rbp => "rbp".toList
  | .rsi => "rsi".toList
  | .rdi => "rdi".toList
  | .r8 => "r8".toList
  | .r9 => "r9".toList
  | .r10 => "r10".toList
  | .r11 => "r11".toList
  | .r12 => "r12".toList
  | .r13 => "r13".toList
  | .r14 => "r14".toList
  | .r15 => "r15".toList

/-- The group as the integer 0 or 1 (10_state R21). -/
def groupBit : Group → Nat
  | .g0 => 0
  | .g1 => 1

/-- The register of a group at a number: table R21 read backwards (30 R73). -/
def regOf (g : Group) (n : BitVec 3) : Reg :=
  match g, n.toNat with
  | .g0, 0 => .rax
  | .g0, 1 => .rcx
  | .g0, 2 => .rdx
  | .g0, 3 => .rbx
  | .g0, 4 => .rsp
  | .g0, 5 => .rbp
  | .g0, 6 => .rsi
  | .g0, _ => .rdi
  | .g1, 0 => .r8
  | .g1, 1 => .r9
  | .g1, 2 => .r10
  | .g1, 3 => .r11
  | .g1, 4 => .r12
  | .g1, 5 => .r13
  | .g1, 6 => .r14
  | .g1, _ => .r15

/-- The register's number as the 3-bit field (10_state R21, column "register bits"). -/
def regField (r : Reg) : BitVec 3 := BitVec.ofNat 3 (regNumber r)

/-- `REXTAB`, keyed by (group(reg1), group(reg2)) (10_state R25). -/
def rexTab : Group → Group → Byte
  | .g0, .g0 => 0x48
  | .g1, .g0 => 0x49
  | .g0, .g1 => 0x4C
  | .g1, .g1 => 0x4D

/-- `ALUOP` (10_state R26). -/
def aluOp : AluOp → Byte
  | .add => 0x01
  | .sub => 0x29
  | .cmp => 0x39

/-- `CCOP`, the two opcode bytes of a condition (10_state R27). -/
def ccOp : Cond → Byte × Byte
  | .e => (0x0F, 0x94)
  | .ne => (0x0F, 0x95)
  | .g => (0x0F, 0x9F)
  | .l => (0x0F, 0x9C)
  | .ge => (0x0F, 0x9D)
  | .le => (0x0F, 0x9E)

/-- OPC_MOV_RI32 (10_state R28). -/
def opcMovRI32 : Byte := 0xC7
/-- OPC_MOV_OI64_BASE, as the hex text the block hands to `fromHexWithOffset` (10_state R28). -/
def opcMovOI64Base : Text := "b8".toList
/-- OPC_MOV_STORE (10_state R28). -/
def opcMovStore : Byte := 0x89
/-- OPC_MOV_LOAD (10_state R28). -/
def opcMovLoad : Byte := 0x8B
/-- MOD_DIRECT (10_state R28). -/
def modDirect : BitVec 2 := 0b11
/-- MOD_INDIRECT (10_state R28). -/
def modIndirect : BitVec 2 := 0b00
/-- MOD_DISP8 (10_state R28). -/
def modDisp8 : BitVec 2 := 0b01
/-- SIB_NOINDEX (10_state R28). -/
def sibNoIndex : Byte := 0x24
/-- DISP8_ZERO (10_state R28). -/
def disp8Zero : Byte := 0x00
/-- REX_B_ONLY (10_state R28). -/
def rexBOnly : Byte := 0x41
/-- OPC_RET (10_state R28). -/
def opcRet : Byte := 0xC3

end Sys2Proof
end

