-- ==== Sys2Proof/Machine/Policies.lean ====
section
/-! DEFINITION. The shared ISA policies (41_policies R120 to R132): pure functions that read only the constant tables
(R133). -/

namespace Sys2Proof.Policy

open Bits

/-- `regbits(r)`, the 3-bit pattern of the number (R120). -/
def regbits (r : Reg) : BitVector := pattern 3 (regNumber r)

/-- `rexFor(reg1, reg2)`, looked up in the table, never computed (R121). -/
def rexFor (reg1 reg2 : Reg) : BitVector := byteBits (rexTab (regGroup reg1) (regGroup reg2))

/-- `immSize(v)` (R123; 90 C2, C3). -/
def immSize (v : Int) : Except EncError Nat :=
  if v = 0 then .ok 0
  else if -2 ^ 7 ≤ v ∧ v ≤ 2 ^ 7 - 1 then .ok 1
  else if -2 ^ 15 ≤ v ∧ v ≤ 2 ^ 15 - 1 then .ok 2
  else if -2 ^ 31 ≤ v ∧ v ≤ 2 ^ 31 - 1 then .ok 4
  else if -2 ^ 63 ≤ v ∧ v ≤ 2 ^ 64 - 1 then .ok 8
  else .error .unsupportedImmediateSize

/-- The size classes that select the compact form (R125). -/
def compactSize (s : Nat) : Bool := s == 0 || s == 1 || s == 2 || s == 4

/-- `fits32(v)`: the value's size class selects the compact form (R125). DESIGN CHOICE (log entry 29): R125 defines it only
where `immSize` returns Ok; of a value that `immSize` refuses it is false here. -/
def fits32 (v : Int) : Bool :=
  match immSize v with
  | .ok s => compactSize s
  | .error _ => false

/-- A value coded in `n` bits and byte-reversed (R126). -/
def immediate (v : Int) (n : Nat) : Except EncError BitVector :=
  match fromIntegerLen v n with
  | .ok t => reversedBytes t
  | .error e => .error e

/-- `imm32(v)` (R126). -/
def imm32 (v : Int) : Except EncError BitVector := immediate v 32

/-- `imm64(v)` (R126). -/
def imm64 (v : Int) : Except EncError BitVector := immediate v 64

/-- A ModRM mod constant as its two bits (10_state R28). -/
def modBits (m : BitVec 2) : BitVector := pattern 2 m.toNat

/-- `addrMode(a)`: mod and trailing bytes, decided by the number alone (R128, R129). -/
def addrMode (a : Reg) : BitVector × BitVector :=
  if regNumber a = 5 then (modBits modDisp8, byteBits disp8Zero)
  else if regNumber a = 4 then (modBits modIndirect, byteBits sibNoIndex)
  else (modBits modIndirect, zeros 0)

/-- `memOperand(regfield, a)`: ModRM and trailing bytes of `[a]` (R131). -/
def memOperand (regfield : BitVector) (a : Reg) : BitVector :=
  (addrMode a).1 ++ regfield ++ regbits a ++ (addrMode a).2

/-- `regDirect(regfield, rmReg)`: ModRM of a register operand (R132). -/
def regDirect (regfield : BitVector) (rmReg : Reg) : BitVector :=
  modBits modDirect ++ regfield ++ regbits rmReg

end Sys2Proof.Policy
end

