-- ==== Sys2Proof/Machine/Block.lean ====
section
/-! DEFINITION. The block: `encode` and `render` of every variant (42_mov, 43_alu, 44_setcc, 45_ret) and the answer to
each request (00_scope R5; 92 D31). -/

namespace Sys2Proof.Block

open Bits Policy

/-- `encode(movImm(dst, v))` (42 R145): the size class is decided before anything is emitted. -/
def encodeMovImm (dst : Reg) (v : Int) : Except EncError BitVector :=
  match immSize v with
  | .error e => .error e
  | .ok s =>
    let rex := rexFor dst .rax
    if compactSize s then
      match imm32 v with
      | .error e => .error e
      | .ok im => .ok (rex ++ byteBits opcMovRI32 ++ regDirect [false, false, false] dst ++ im)
    else
      match fromHexWithOffset opcMovOI64Base (regNumber dst) with
      | .error e => .error e
      | .ok op =>
        match imm64 v with
        | .error e => .error e
        | .ok im => .ok (rex ++ op ++ im)

/-- `encode(movStore(addr, src))` (42 R149). -/
def encodeMovStore (addr src : Reg) : Except EncError BitVector :=
  .ok (rexFor addr src ++ byteBits opcMovStore ++ memOperand (regbits src) addr)

/-- `encode(movLoad(dst, addr))` (42 R151). -/
def encodeMovLoad (dst addr : Reg) : Except EncError BitVector :=
  .ok (rexFor addr dst ++ byteBits opcMovLoad ++ memOperand (regbits dst) addr)

/-- `aluEncode(opc, dst, src)` (43 R165). -/
def aluEncode (opc : Byte) (dst src : Reg) : Except EncError BitVector :=
  .ok (rexFor dst src ++ byteBits opc ++ regDirect (regbits src) dst)

/-- `encode(alu(op, dst, src))` (43 R166, R167, R168). -/
def encodeAlu (op : AluOp) (dst src : Reg) : Except EncError BitVector := aluEncode (aluOp op) dst src

/-- `setEncode(cc, r)`: the zeroing move, the extra prefix for group 1 only, the SETcc (44 R175). -/
def setEncode (cc : Byte × Byte) (r : Reg) : Except EncError BitVector :=
  match encodeMovImm r 0 with
  | .error e => .error e
  | .ok z =>
    let pre := match regGroup r with
      | .g1 => byteBits rexBOnly
      | .g0 => zeros 0
    .ok (z ++ pre ++ byteBits cc.1 ++ byteBits cc.2 ++ regDirect [false, false, false] r)

/-- `encode(setCC(c, r))` (44 R176 to R181). -/
def encodeSetCC (c : Cond) (r : Reg) : Except EncError BitVector := setEncode (ccOp c) r

/-- `encode(ret)` (45 R185). -/
def encodeRet : Except EncError BitVector := .ok (byteBits opcRet)

/-- `encode` (30 R55; 60 R221). -/
def encode : Descriptor → Except EncError BitVector
  | .movImm dst v => encodeMovImm dst v
  | .movStore addr src => encodeMovStore addr src
  | .movLoad dst addr => encodeMovLoad dst addr
  | .alu op dst src => encodeAlu op dst src
  | .setCC c r => encodeSetCC c r
  | .ret => encodeRet

/-- The decimal digits of `n`, least significant first; the fuel bounds their number. -/
def decimalDigits : Nat → Nat → Text
  | 0, _ => []
  | fuel + 1, n =>
    let d := "0123456789".toList.getD (n % 10) '0'
    if n < 10 then [d] else d :: decimalDigits fuel (n / 10)

/-- The decimal numeral of a natural number: no leading zeros, "0" for zero (42 R148). -/
def natText (n : Nat) : Text := (decimalDigits (n.log2 + 1) n).reverse

/-- `dec(v)` (42 R148; 92 D13). -/
def dec (v : Int) : Text := if v < 0 then '-' :: natText (-v).toNat else natText v.toNat

/-- The mnemonic of an ALU operation (43 R169; 92 D14). -/
def aluText : AluOp → Text
  | .add => "add".toList
  | .sub => "sub".toList
  | .cmp => "cmp".toList

/-- The mnemonic of a set-on-condition (44 R183; 92 D14). -/
def setText : Cond → Text
  | .e => "sete".toList
  | .ne => "setne".toList
  | .g => "setg".toList
  | .l => "setl".toList
  | .ge => "setge".toList
  | .le => "setle".toList

/-- `render(movImm(dst, v))` (42 R148). -/
def renderMovImm (dst : Reg) (v : Int) : Text := "mov ".toList ++ regName dst ++ ", ".toList ++ dec v

/-- `render(movStore(addr, src))` (42 R150). -/
def renderMovStore (addr src : Reg) : Text := "mov [".toList ++ regName addr ++ "], ".toList ++ regName src

/-- `render(movLoad(dst, addr))` (42 R152). -/
def renderMovLoad (dst addr : Reg) : Text := "mov ".toList ++ regName dst ++ ", [".toList ++ regName addr ++ "]".toList

/-- `render(alu(op, dst, src))` (43 R169). -/
def renderAlu (op : AluOp) (dst src : Reg) : Text := aluText op ++ " ".toList ++ regName dst ++ ", ".toList ++ regName src

/-- `render(setCC(c, r))`: one named instruction (44 R183; 30 R81). -/
def renderSetCC (c : Cond) (r : Reg) : Text := setText c ++ " ".toList ++ regName r

/-- `render(ret)` (45 R186). -/
def renderRet : Text := "ret".toList

/-- `render`, total even where `encode` raises (30 R80; 92 D15). -/
def render : Descriptor → Text
  | .movImm dst v => renderMovImm dst v
  | .movStore addr src => renderMovStore addr src
  | .movLoad dst addr => renderMovLoad dst addr
  | .alu op dst src => renderAlu op dst src
  | .setCC c r => renderSetCC c r
  | .ret => renderRet

/-- The block's answer to a request: a function of the request and the constant tables alone (10_state R20, R36). -/
def answer : Request → Response
  | .encode d => (encode d).map .bits
  | .render d => .ok (.text (render d))
  | .fromBits bs => .ok (.bits (fromBits bs))
  | .zeros n => .ok (.bits (zeros n))
  | .len v => .ok (.nat (len v))
  | .fromIntegerLen v n => (fromIntegerLen v n).map .bits
  | .fromInteger v => (fromInteger v).map .bits
  | .fromHex t => (fromHex t).map .bits
  | .fromHexWithOffset t offset => (fromHexWithOffset t offset).map .bits
  | .join vs => .ok (.bits (join vs))
  | .slice v start stop => (slice v start stop).map .bits
  | .reversedBytes v => (reversedBytes v).map .bits
  | .toHex v => (toHex v).map .text
  | .byteLength v => (byteLength v).map .nat
  | .uint v => .ok (.nat (uint v))
  | .equal v w => .ok (.bool (equal v w))
  | .eqBits v t => .ok (.bool (eqBits v t))
  | .eqHex v t => .ok (.bool (eqHex v t))

/-- The answer keeps the bound on lengths, where one is set (93 I9, 92 D33). -/
def withinBound (bound : Option Nat) (r : Response) : Bool :=
  match bound, r with
  | some m, .ok (.bits v) => decide (len v ≤ m)
  | _, _ => true

end Sys2Proof.Block
end

