-- ==== Sys2Proof/WellFormed.lean ====
section
/-! DEFINITION. Which operands a form admits (the table's constraints, 30 R67 to R71), and which instructions the block
itself emits (the value constraint of F-OI64, 41 R123). -/

namespace Sys2Proof

/-- The address register of the plain memory forms: number neither 4 nor 5 (30 R67, R68). -/
def plainBase (a : Reg) : Bool := regNumber a != 4 && regNumber a != 5

/-- The address register of the SIB forms: rsp or r12 (30 R67, R68, R75). -/
def sibBase (a : Reg) : Bool := regNumber a == 4

/-- The address register of the disp8 forms: rbp or r13 (30 R67, R68, R76). -/
def disp8Base (a : Reg) : Bool := regNumber a == 5

/-- The operands are ones the form's encoding can name. -/
def Instr.wellFormed : Instr → Bool
  | .movImm32 _ _ => true
  | .movImm64 _ _ => true
  | .store a _ => plainBase a
  | .storeSib a _ => sibBase a
  | .storeDisp8 a _ => disp8Base a
  | .load _ a => plainBase a
  | .loadSib _ a => sibBase a
  | .loadDisp8 _ a => disp8Base a
  | .add _ _ => true
  | .sub _ _ => true
  | .cmp _ _ => true
  | .seteG0 r => regGroup r == .g0
  | .seteG1 r => regGroup r == .g1
  | .setneG0 r => regGroup r == .g0
  | .setneG1 r => regGroup r == .g1
  | .setgG0 r => regGroup r == .g0
  | .setgG1 r => regGroup r == .g1
  | .setlG0 r => regGroup r == .g0
  | .setlG1 r => regGroup r == .g1
  | .setgeG0 r => regGroup r == .g0
  | .setgeG1 r => regGroup r == .g1
  | .setleG0 r => regGroup r == .g0
  | .setleG1 r => regGroup r == .g1
  | .ret => true

/-- The block emits this instruction for some descriptor: well formed, and a full-form immediate is a pattern of the
8-byte bucket (41 R123: below 2^31 the compact form is chosen; 30 R73). The target runs any pattern (49 R193), so this is
no condition of `wellFormed` (log entry 14). -/
def Instr.emitted (i : Instr) : Bool :=
  i.wellFormed && match i with
    | .movImm64 _ imm => decide (2 ^ 31 ≤ imm.toNat)
    | _ => true

end Sys2Proof
end

