-- ==== Sys2Proof/Decode.lean ====
section
/-! DEFINITION. Bytes to instructions, total and rejecting by name; the encoder after it; the opcode table's rows as data;
the reader of an output stream; and the host's table words. -/

namespace Sys2Proof

/-- Why bytes are no output form of the block (30 R74 to R77). The decoder raises them; the target's step then refuses
(safe: the model stops where the processor may go on). -/
inductive DecodeError
  /-- The bytes end inside an instruction. -/
  | truncated
  /-- The first byte is neither C3 nor one of the REX bytes 48, 49, 4C, 4D (R74, R78). -/
  | firstByte
  /-- The opcode is not one of R58. -/
  | opcode
  /-- REX.R is set on a form without a register in ModRM.reg (R65, R66). -/
  | rexR
  /-- ModRM does not have the form's mod and reg fields (R65 to R69, R77). -/
  | modRM
  /-- mod = 00 with rm = 101: relative to the instruction pointer, never emitted (R76; 93 I7). -/
  | ripRelative
  /-- A SIB byte other than 24 (R60, R77). -/
  | sib
  /-- A displacement other than disp8 = 0 (R61, R77). -/
  | displacement
  deriving DecidableEq, Repr

/-- Bits 7:6 of ModRM (30 R59). -/
def modOf (m : Byte) : BitVec 2 := m.extractLsb' 6 2
/-- Bits 5:3 of ModRM (30 R59). -/
def regFieldOf (m : Byte) : BitVec 3 := m.extractLsb' 3 3
/-- Bits 2:0 of ModRM, or of the opcode (30 R59, R64). -/
def rmOf (m : Byte) : BitVec 3 := m.extractLsb' 0 3

/-- The groups (R, B) a REX byte of the table stands for (30 R57). -/
def rexGroups (b : Byte) : Option (Group × Group) :=
  if b = rexTab .g0 .g0 then some (.g0, .g0)
  else if b = rexTab .g1 .g0 then some (.g0, .g1)
  else if b = rexTab .g0 .g1 then some (.g1, .g0)
  else if b = rexTab .g1 .g1 then some (.g1, .g1)
  else none

/-- The condition of an opcode pair (10_state R27). -/
def condOf (b0 b1 : Byte) : Option Cond :=
  if (b0, b1) = ccOp .e then some .e
  else if (b0, b1) = ccOp .ne then some .ne
  else if (b0, b1) = ccOp .g then some .g
  else if (b0, b1) = ccOp .l then some .l
  else if (b0, b1) = ccOp .ge then some .ge
  else if (b0, b1) = ccOp .le then some .le
  else none

/-- A SETcc after its optional prefix byte: opcode pair, then ModRM 11 000 nnn (30 R70, R71). -/
def setBody (g : Group) : List Byte → Option SetPart
  | b0 :: b1 :: m :: _ =>
    match condOf b0 b1 with
    | some c => if modOf m = modDirect ∧ regFieldOf m = 0 then some ⟨c, g, rmOf m⟩ else none
    | none => none
  | _ => none

/-- The SETcc part of a compound, at the head of the bytes (30 R74: `41 0F 9x` or `0F 9x`). -/
def decodeSetPart : List Byte → Option SetPart
  | b :: rest => if b = rexBOnly then setBody .g1 rest else setBody .g0 (b :: rest)
  | [] => none

/-- The compound instruction of a condition and a register (30 R70, R71). -/
def setInstr : Cond → Group → Reg → Instr
  | .e, .g0, r => .seteG0 r
  | .e, .g1, r => .seteG1 r
  | .ne, .g0, r => .setneG0 r
  | .ne, .g1, r => .setneG1 r
  | .g, .g0, r => .setgG0 r
  | .g, .g1, r => .setgG1 r
  | .l, .g0, r => .setlG0 r
  | .l, .g1, r => .setlG1 r
  | .ge, .g0, r => .setgeG0 r
  | .ge, .g1, r => .setgeG1 r
  | .le, .g0, r => .setleG0 r
  | .le, .g1, r => .setleG1 r

/-- The SETcc part that completes a zeroing of `r` to a compound: the same group and number (30 R70, R71). -/
def setPartFor (r : Reg) (bs : List Byte) : Option Cond :=
  match decodeSetPart bs with
  | some p => if p.group = regGroup r ∧ p.number = regField r then some p.cond else none
  | none => none

/-- F-RI32 after its opcode; a zero followed by the SETcc of the same register is the compound (R65, R70, R71;
log entry 12). -/
def decodeRI32 (b : Group) : List Byte → Except DecodeError Instr
  | m :: i0 :: i1 :: i2 :: i3 :: rest =>
    if modOf m = modDirect ∧ regFieldOf m = 0 then
      let r := regOf b (rmOf m)
      let imm : BitVec 32 := i3 ++ i2 ++ i1 ++ i0
      if imm = 0 then
        match setPartFor r rest with
        | some c => .ok (setInstr c b r)
        | none => .ok (.movImm32 r imm)
      else .ok (.movImm32 r imm)
    else .error .modRM
  | _ => .error .truncated

/-- F-OI64 after its opcode (R66); any 64-bit pattern (log entry 14). -/
def decodeOI64 (r : Reg) : List Byte → Except DecodeError Instr
  | i0 :: i1 :: i2 :: i3 :: i4 :: i5 :: i6 :: i7 :: _ =>
    let imm : BitVec 64 := i7 ++ i6 ++ i5 ++ i4 ++ i3 ++ i2 ++ i1 ++ i0
    .ok (.movImm64 r imm)
  | _ => .error .truncated

/-- The three memory subforms after their opcode, given the constructors on (address register, other register)
(R67, R68, R75, R76). -/
def decodeMem (plain sib disp8 : Reg → Reg → Instr) (r b : Group) : List Byte → Except DecodeError Instr
  | m :: rest =>
    let a := regOf b (rmOf m)
    let x := regOf r (regFieldOf m)
    if modOf m = modIndirect then
      if rmOf m = 4 then
        match rest with
        | s :: _ => if s = sibNoIndex then .ok (sib a x) else .error .sib
        | [] => .error .truncated
      else if rmOf m = 5 then .error .ripRelative
      else .ok (plain a x)
    else if modOf m = modDisp8 then
      if rmOf m = 5 then
        match rest with
        | d :: _ => if d = disp8Zero then .ok (disp8 a x) else .error .displacement
        | [] => .error .truncated
      else .error .displacement
    else .error .modRM
  | [] => .error .truncated

/-- F-ALU after its opcode, given the constructor on (destination, source) (R69). -/
def decodeAlu (form : Reg → Reg → Instr) (r b : Group) : List Byte → Except DecodeError Instr
  | m :: _ => if modOf m = modDirect then .ok (form (regOf b (rmOf m)) (regOf r (regFieldOf m))) else .error .modRM
  | [] => .error .truncated

/-- The opcode after a REX prefix with groups R and B (R58). -/
def decodeOpcode (r b : Group) : List Byte → Except DecodeError Instr
  | op :: rest =>
    if op = opcMovRI32 then (if r = .g0 then decodeRI32 b rest else .error .rexR)
    else if op.extractLsb' 3 5 = 0b10111#5 then
      (if r = .g0 then decodeOI64 (regOf b (rmOf op)) rest else .error .rexR)
    else if op = opcMovStore then decodeMem .store .storeSib .storeDisp8 r b rest
    else if op = opcMovLoad then
      decodeMem (fun a d => .load d a) (fun a d => .loadSib d a) (fun a d => .loadDisp8 d a) r b rest
    else if op = aluOp .add then decodeAlu .add r b rest
    else if op = aluOp .sub then decodeAlu .sub r b rest
    else if op = aluOp .cmp then decodeAlu .cmp r b rest
    else .error .opcode
  | [] => .error .truncated

/-- The instruction at the head of the bytes. -/
def decode : List Byte → Except DecodeError Instr
  | b :: rest =>
    if b = opcRet then .ok .ret
    else match rexGroups b with
      | some (r, g) => decodeOpcode r g rest
      | none => .error .firstByte
  | [] => .error .truncated

/-! The encoder, from the format diagrams (30 R65 to R72). -/

/-- ModRM from its three fields (30 R59). -/
def modRM (m : BitVec 2) (reg rm : BitVec 3) : Byte := m ++ reg ++ rm

/-- The REX byte of a form: the rm or opcode register first, the reg register second (41 R121). -/
def rexByte (rm reg : Reg) : Byte := rexTab (regGroup rm) (regGroup reg)

/-- Byte `k` of a value, byte 0 the least significant (30 R62, R63). -/
def byteOf {n : Nat} (v : BitVec n) (k : Nat) : Byte := v.extractLsb' (8 * k) 8

/-- F-RI32 (R65). -/
def bytesRI32 (r : Reg) (imm : BitVec 32) : List Byte :=
  [rexByte r .rax, opcMovRI32, modRM modDirect 0 (regField r), byteOf imm 0, byteOf imm 1, byteOf imm 2, byteOf imm 3]

/-- F-OI64 (R66): opcode `10111ddd`. -/
def bytesOI64 (r : Reg) (imm : BitVec 64) : List Byte :=
  [rexByte r .rax, 0b10111#5 ++ regField r, byteOf imm 0, byteOf imm 1, byteOf imm 2, byteOf imm 3, byteOf imm 4,
    byteOf imm 5, byteOf imm 6, byteOf imm 7]

/-- The plain memory form (R67, R68). -/
def bytesMem (opc : Byte) (a x : Reg) : List Byte :=
  [rexByte a x, opc, modRM modIndirect (regField x) (regField a)]

/-- The SIB memory form (R67, R68). -/
def bytesMemSib (opc : Byte) (a x : Reg) : List Byte :=
  [rexByte a x, opc, modRM modIndirect (regField x) (regField a), sibNoIndex]

/-- The disp8 memory form (R67, R68). -/
def bytesMemDisp8 (opc : Byte) (a x : Reg) : List Byte :=
  [rexByte a x, opc, modRM modDisp8 (regField x) (regField a), disp8Zero]

/-- F-ALU (R69). -/
def bytesAlu (op : AluOp) (d s : Reg) : List Byte :=
  [rexByte d s, aluOp op, modRM modDirect (regField s) (regField d)]

/-- The SETcc part (R70, R71). -/
def bytesSetPart (p : SetPart) : List Byte :=
  (match p.group with
    | .g0 => []
    | .g1 => [rexBOnly]) ++ [(ccOp p.cond).1, (ccOp p.cond).2, modRM modDirect 0 p.number]

/-- F-SETCC-0 and F-SETCC-1 (R70, R71). -/
def bytesSet (c : Cond) (g : Group) (r : Reg) : List Byte := bytesRI32 r 0 ++ bytesSetPart ⟨c, g, regField r⟩

/-- The bytes of a well-formed instruction. -/
def encode : Instr → List Byte
  | .movImm32 d imm => bytesRI32 d imm
  | .movImm64 d imm => bytesOI64 d imm
  | .store a s => bytesMem opcMovStore a s
  | .storeSib a s => bytesMemSib opcMovStore a s
  | .storeDisp8 a s => bytesMemDisp8 opcMovStore a s
  | .load d a => bytesMem opcMovLoad a d
  | .loadSib d a => bytesMemSib opcMovLoad a d
  | .loadDisp8 d a => bytesMemDisp8 opcMovLoad a d
  | .add d s => bytesAlu .add d s
  | .sub d s => bytesAlu .sub d s
  | .cmp d s => bytesAlu .cmp d s
  | .seteG0 r => bytesSet .e .g0 r
  | .seteG1 r => bytesSet .e .g1 r
  | .setneG0 r => bytesSet .ne .g0 r
  | .setneG1 r => bytesSet .ne .g1 r
  | .setgG0 r => bytesSet .g .g0 r
  | .setgG1 r => bytesSet .g .g1 r
  | .setlG0 r => bytesSet .l .g0 r
  | .setlG1 r => bytesSet .l .g1 r
  | .setgeG0 r => bytesSet .ge .g0 r
  | .setgeG1 r => bytesSet .ge .g1 r
  | .setleG0 r => bytesSet .le .g0 r
  | .setleG1 r => bytesSet .le .g1 r
  | .ret => [opcRet]

/-- The number of bytes of each form (30 R56). -/
def formLength : Instr → Nat
  | .movImm32 _ _ => 7
  | .movImm64 _ _ => 10
  | .store _ _ => 3
  | .storeSib _ _ => 4
  | .storeDisp8 _ _ => 4
  | .load _ _ => 3
  | .loadSib _ _ => 4
  | .loadDisp8 _ _ => 4
  | .add _ _ => 3
  | .sub _ _ => 3
  | .cmp _ _ => 3
  | .seteG0 _ => 10
  | .seteG1 _ => 11
  | .setneG0 _ => 10
  | .setneG1 _ => 11
  | .setgG0 _ => 10
  | .setgG1 _ => 11
  | .setlG0 _ => 10
  | .setlG1 _ => 11
  | .setgeG0 _ => 10
  | .setgeG1 _ => 11
  | .setleG0 _ => 10
  | .setleG1 _ => 11
  | .ret => 1

/-- The longest form, in bytes (30 R56). -/
def maxLength : Nat := 11

/-- The bytes after a zeroing move complete it to a compound (30 R70, R71): `i` standing before `rest` is then read as
the compound, not as the move alone (log entry 12). -/
def startsCompound (i : Instr) (rest : List Byte) : Bool :=
  match i with
  | .movImm32 r imm => decide (imm = 0) && (setPartFor r rest).isSome
  | _ => false

/-- The machine-instruction length that a reader of the block's own output takes from its leading bytes (30 R74). -/
def unitLength : List Byte → Option Nat
  | b :: rest =>
    if b = opcRet then some 1
    else if b = rexBOnly then some 4
    else if b = 0x0F then some 3
    else if (rexGroups b).isSome then
      match rest with
      | op :: rest' =>
        if op = opcMovRI32 then some 7
        else if op.extractLsb' 3 5 = 0b10111#5 then some 10
        else if op = opcMovStore ∨ op = opcMovLoad then
          match rest' with
          | m :: _ =>
            if modOf m = modIndirect ∧ rmOf m = 4 then some 4
            else if modOf m = modDisp8 then some 4
            else some 3
          | [] => none
        else if op = aluOp .add ∨ op = aluOp .sub ∨ op = aluOp .cmp then some 3
        else none
      | [] => none
    else none
  | [] => none

/-! Descriptors and forms. -/

/-- The table row a descriptor's output has, by the variant, the value's range and the address register's number
(30 R56; 41 R123, R125, R128). -/
def formOf : Descriptor → Except EncError Instr
  | .movImm d v =>
    if -2 ^ 31 ≤ v ∧ v ≤ 2 ^ 31 - 1 then .ok (.movImm32 d (BitVec.ofInt 32 v))
    else if -2 ^ 63 ≤ v ∧ v ≤ 2 ^ 64 - 1 then .ok (.movImm64 d (BitVec.ofInt 64 v))
    else .error .unsupportedImmediateSize
  | .movStore a s =>
    if regNumber a = 4 then .ok (.storeSib a s)
    else if regNumber a = 5 then .ok (.storeDisp8 a s)
    else .ok (.store a s)
  | .movLoad d a =>
    if regNumber a = 4 then .ok (.loadSib d a)
    else if regNumber a = 5 then .ok (.loadDisp8 d a)
    else .ok (.load d a)
  | .alu .add d s => .ok (.add d s)
  | .alu .sub d s => .ok (.sub d s)
  | .alu .cmp d s => .ok (.cmp d s)
  | .setCC c r => .ok (setInstr c (regGroup r) r)
  | .ret => .ok .ret

/-- The descriptor an output form came from (30 R73); a full-form immediate takes the unsigned reading (93 I3). -/
def descriptorOf : Instr → Descriptor
  | .movImm32 d imm => .movImm d imm.toInt
  | .movImm64 d imm => .movImm d imm.toNat
  | .store a s => .movStore a s
  | .storeSib a s => .movStore a s
  | .storeDisp8 a s => .movStore a s
  | .load d a => .movLoad d a
  | .loadSib d a => .movLoad d a
  | .loadDisp8 d a => .movLoad d a
  | .add d s => .alu .add d s
  | .sub d s => .alu .sub d s
  | .cmp d s => .alu .cmp d s
  | .seteG0 r => .setCC .e r
  | .seteG1 r => .setCC .e r
  | .setneG0 r => .setCC .ne r
  | .setneG1 r => .setCC .ne r
  | .setgG0 r => .setCC .g r
  | .setgG1 r => .setCC .g r
  | .setlG0 r => .setCC .l r
  | .setlG1 r => .setCC .l r
  | .setgeG0 r => .setCC .ge r
  | .setgeG1 r => .setCC .ge r
  | .setleG0 r => .setCC .le r
  | .setleG1 r => .setCC .le r
  | .ret => .ret

/-! The rows of opcode_table.json: length, match and mask, read as one number whose first byte is the most significant. -/

/-- A row's length in bytes, its match and its mask. -/
structure OpcodeRow where
  length : Nat
  pattern : Nat
  mask : Nat
  deriving DecidableEq, Repr

/-- The number that bytes spell, the first byte most significant: how the table's match and mask read. -/
def bigEndian (bs : List Byte) : Nat := bs.foldl (fun n b => n * 256 + b.toNat) 0

/-- The bytes agree with the row on every fixed bit and have the row's length. -/
def OpcodeRow.admits (row : OpcodeRow) (bs : List Byte) : Bool :=
  bs.length == row.length && bigEndian bs &&& row.mask == row.pattern

/-- The row of each form. -/
def rowOf : Instr → OpcodeRow
  | .movImm32 _ _ => ⟨7, 0x48c7c000000000, 0xfefff800000000⟩
  | .movImm64 _ _ => ⟨10, 0x48b80000000000000000, 0xfef80000000000000000⟩
  | .store _ _ => ⟨3, 0x488900, 0xfaffc0⟩
  | .storeSib _ _ => ⟨4, 0x48890424, 0xfaffc7ff⟩
  | .storeDisp8 _ _ => ⟨4, 0x48894500, 0xfaffc7ff⟩
  | .load _ _ => ⟨3, 0x488b00, 0xfaffc0⟩
  | .loadSib _ _ => ⟨4, 0x488b0424, 0xfaffc7ff⟩
  | .loadDisp8 _ _ => ⟨4, 0x488b4500, 0xfaffc7ff⟩
  | .add _ _ => ⟨3, 0x4801c0, 0xfaffc0⟩
  | .sub _ _ => ⟨3, 0x4829c0, 0xfaffc0⟩
  | .cmp _ _ => ⟨3, 0x4839c0, 0xfaffc0⟩
  | .seteG0 _ => ⟨10, 0x48c7c0000000000f94c0, 0xfffff8fffffffffffff8⟩
  | .seteG1 _ => ⟨11, 0x49c7c000000000410f94c0, 0xfffff8fffffffffffffff8⟩
  | .setneG0 _ => ⟨10, 0x48c7c0000000000f95c0, 0xfffff8fffffffffffff8⟩
  | .setneG1 _ => ⟨11, 0x49c7c000000000410f95c0, 0xfffff8fffffffffffffff8⟩
  | .setgG0 _ => ⟨10, 0x48c7c0000000000f9fc0, 0xfffff8fffffffffffff8⟩
  | .setgG1 _ => ⟨11, 0x49c7c000000000410f9fc0, 0xfffff8fffffffffffffff8⟩
  | .setlG0 _ => ⟨10, 0x48c7c0000000000f9cc0, 0xfffff8fffffffffffff8⟩
  | .setlG1 _ => ⟨11, 0x49c7c000000000410f9cc0, 0xfffff8fffffffffffffff8⟩
  | .setgeG0 _ => ⟨10, 0x48c7c0000000000f9dc0, 0xfffff8fffffffffffff8⟩
  | .setgeG1 _ => ⟨11, 0x49c7c000000000410f9dc0, 0xfffff8fffffffffffffff8⟩
  | .setleG0 _ => ⟨10, 0x48c7c0000000000f9ec0, 0xfffff8fffffffffffff8⟩
  | .setleG1 _ => ⟨11, 0x49c7c000000000410f9ec0, 0xfffff8fffffffffffffff8⟩
  | .ret => ⟨1, 0xc3, 0xff⟩

/-! The host's table words. -/

/-- `n` bytes of a number, the least significant first. -/
def littleBytes : Nat → Nat → List Byte
  | 0, _ => []
  | n + 1, w => BitVec.ofNat 8 w :: littleBytes n (w / 256)

/-- Bytes followed by zero bytes, up to the longest form. -/
def zeroPadded (bs : List Byte) : List Byte := bs ++ List.replicate (maxLength - bs.length) 0

/-- The bytes decode to an instruction of exactly this many bytes. -/
def decodesWhole (bs : List Byte) : Bool :=
  match decode (zeroPadded bs) with
  | .ok i => formLength i == bs.length
  | .error _ => false

/-- The bytes of a table word. spec/opcode_table.json numbers a row as one number whose FIRST byte is the most
significant; where that reading is no instruction of the row's length, the first byte is taken as the least significant
(log entry 15). -/
def tableBytes (nbits w : Nat) : List Byte :=
  let le := littleBytes (nbits / 8) w
  zeroPadded (if decodesWhole le.reverse then le.reverse else le)

/-- The instruction the decoder reads from an instruction whose bits are `w`. -/
def decodeTableWord (nbits w : Nat) : Option Instr :=
  match decode (tableBytes nbits w) with
  | .ok i => some i
  | .error _ => none

end Sys2Proof
end

