-- ==== Sys2Proof/Machine/State.lean ====
section
/-! DEFINITION. The state: the host's port to the block, and the target processor with its paging and privilege data. The
block itself has no mutable state (10_state R20, R30 to R36); its tables are definitions (70 R237). -/

namespace Sys2Proof.Machine

/-- The target's general registers (49 R191). -/
structure RegFile where
  rax : Word
  rcx : Word
  rdx : Word
  rbx : Word
  rsp : Word
  rbp : Word
  rsi : Word
  rdi : Word
  r8 : Word
  r9 : Word
  r10 : Word
  r11 : Word
  r12 : Word
  r13 : Word
  r14 : Word
  r15 : Word
  deriving DecidableEq, Repr

/-- The flags CF, PF, AF, ZF, SF and OF of RFLAGS (49 R191). -/
structure Flags where
  cf : Bool
  pf : Bool
  af : Bool
  zf : Bool
  sf : Bool
  ovf : Bool
  deriving DecidableEq, Repr

/-- Target memory: the listed bytes, addresses rising, no listed byte equal to what an unlisted address reads as. -/
abbrev Memory := List Host.Cell

/-- A data access reads or writes (49 R194, R195, R203). -/
inductive AccessKind
  | read | write
  deriving DecidableEq, Repr

/-- The default segment of an access: it decides #SS(0) or #GP(0) (49 R196, R204). -/
inductive Segment
  | ss | ds
  deriving DecidableEq, Repr

/-- How many address bits a canonical address has (49 R204; log entry 8). -/
inductive LinearWidth
  | bits48 | bits57
  deriving DecidableEq, Repr

/-- A region whose accesses of one kind raise #PF with this fault code (49 R204; log entry 9). PRESUMED (log entry 28): the
code has 32 bits. -/
structure FaultRegion where
  base : Nat
  size : Nat
  kind : AccessKind
  code : BitVec 32
  deriving DecidableEq, Repr

/-- The target faults (49 R204). -/
inductive TargetException
  /-- #GP(0): a non-canonical address outside SS, or a non-canonical return target. -/
  | generalProtection
  /-- #SS(0): a non-canonical address of an SS-based access. -/
  | stackFault
  /-- #PF(code), with the faulting address that CR2 receives. PRESUMED (log entry 28): R204 gives the code no width, and it
  has 32 bits here. -/
  | pageFault (address : Word) (code : BitVec 32)
  /-- #AC(0): an unaligned 8-byte access under alignment checking at CPL 3. -/
  | alignmentCheck
  deriving DecidableEq, Repr

/-- The state. `request` and `response` are the host's port to the block (92 D31); the registers, flags, `rip`, `mem` and
`cr2` are the target's (49 R191, R204); `exception` is a raised fault that is not delivered (log entry 6); the last four
are the paging and privilege data that decide whether an access faults (49 R204; log entries 8, 9). -/
structure State where
  request : Option Request
  response : Option Response
  regs : RegFile
  flags : Flags
  rip : Word
  mem : Memory
  cr2 : Word
  exception : Option TargetException
  pageFaults : List FaultRegion
  linear : LinearWidth
  alignmentCheck : Bool
  cpl : BitVec 2
  deriving DecidableEq, Repr

/-- Why the machine stops with a fault. -/
inductive Fault
  /-- Raised by the target's step while a target fault is recorded and not delivered: the spec names the fault (49 R204)
  and gives no handler, no stack frame and no entry, so the target stops here. Safe: the model stops where a processor
  would enter its handler. -/
  | undelivered (e : TargetException)
  deriving DecidableEq, Repr

/-- Why a step is refused. -/
inductive Refusal
  /-- Raised by `exec` for an instruction that has no meaning yet. Safe. -/
  | notModelled (mnemonic : String)
  /-- Raised by the target's step when the bytes at `rip` are neither an output form of the block nor the SETcc part of
  one: the spec describes no other encoding (49 R190; 30 R77). Safe. -/
  | undescribed (e : DecodeError)
  /-- Raised by the block's step when an answer exceeds the bound on lengths, where Config sets one (92 D33; 93 I9).
  Safe. -/
  | lengthBound
  deriving DecidableEq, Repr

/-- All flags clear: 95 L3 leaves them unspecified at the start (log entry 4). -/
def Flags.clear : Flags := ⟨false, false, false, false, false, false⟩

/-- The registers at reset: the start state of 95 L3, `rsp = 0x00007fffffffe000`, every other register 0
(log entry 4). -/
def RegFile.reset : RegFile := ⟨0, 0, 0, 0, 0x00007fffffffe000, 0, 0, 0, 0, 0, 0, 0, 0, 0, 0, 0⟩

/-- After reset: the block is ready for its first request (70 R235, R236); the target stands in the start state of
95 L3 with nothing listed in memory (log entries 4, 5, 8, 9, 22). -/
def State.reset : State where
  request := none
  response := none
  regs := RegFile.reset
  flags := Flags.clear
  rip := 0x0000000000500000
  mem := []
  cr2 := 0
  exception := none
  pageFaults := []
  linear := .bits48
  alignmentCheck := false
  cpl := 3

end Sys2Proof.Machine
end

