-- ==== Sys2Proof/Machine/Ops.lean ====
section
/-! DEFINITION. The named operations over registers and memory, the access checks of 49 R204, and the raising of a target
fault. -/

namespace Sys2Proof.Machine

/-- `x[r]`, a read (00_scope R10). -/
def readReg (f : RegFile) : Reg → Word
  | .rax => f.rax
  | .rcx => f.rcx
  | .rdx => f.rdx
  | .rbx => f.rbx
  | .rsp => f.rsp
  | .rbp => f.rbp
  | .rsi => f.rsi
  | .rdi => f.rdi
  | .r8 => f.r8
  | .r9 => f.r9
  | .r10 => f.r10
  | .r11 => f.r11
  | .r12 => f.r12
  | .r13 => f.r13
  | .r14 => f.r14
  | .r15 => f.r15

/-- `x[r] <- v` (00_scope R10). -/
def writeReg (f : RegFile) (r : Reg) (v : Word) : RegFile :=
  match r with
  | .rax => { f with rax := v }
  | .rcx => { f with rcx := v }
  | .rdx => { f with rdx := v }
  | .rbx => { f with rbx := v }
  | .rsp => { f with rsp := v }
  | .rbp => { f with rbp := v }
  | .rsi => { f with rsi := v }
  | .rdi => { f with rdi := v }
  | .r8 => { f with r8 := v }
  | .r9 => { f with r9 := v }
  | .r10 => { f with r10 := v }
  | .r11 => { f with r11 := v }
  | .r12 => { f with r12 := v }
  | .r13 => { f with r13 := v }
  | .r14 => { f with r14 := v }
  | .r15 => { f with r15 := v }

/-- The state with `x[r] <- v`. -/
def State.setReg (s : State) (r : Reg) (v : Word) : State := { s with regs := writeReg s.regs r v }

/-- The state with other flags. -/
def State.setFlags (s : State) (f : Flags) : State := { s with flags := f }

/-- The state with another memory. -/
def State.setMem (s : State) (m : Memory) : State := { s with mem := m }

/-- `pc` moves past an instruction of `n` bytes (49 R191; log entry 25). -/
def State.advance (s : State) (n : Nat) : State := { s with rip := s.rip + BitVec.ofNat 64 n }

/-- `pc <- target` (00_scope R10). -/
def State.jump (s : State) (target : Word) : State := { s with rip := target }

/-- What an address that is not listed reads as (log entry 5). -/
def unlistedByte : Byte := 0x00

/-- The canonical form of memory: addresses rising and below 2^64, no listed byte that reads as an unlisted one. -/
def Memory.wf : Memory → Bool
  | [] => true
  | [(a, b)] => decide (a < 2 ^ 64) && b != unlistedByte
  | (a, b) :: (a', b') :: rest => decide (a < a') && b != unlistedByte && Memory.wf ((a', b') :: rest)

/-- The byte at an address. -/
def readByte : Memory → Nat → Byte
  | [], _ => unlistedByte
  | (a', b') :: rest, a => if a = a' then b' else readByte rest a

/-- The memory with a byte written, in canonical form. -/
def writeByte : Memory → Nat → Byte → Memory
  | [], a, b => if b = unlistedByte then [] else [(a, b)]
  | (a', b') :: rest, a, b =>
    if a < a' then (if b = unlistedByte then (a', b') :: rest else (a, b) :: (a', b') :: rest)
    else if a = a' then (if b = unlistedByte then rest else (a, b) :: rest)
    else (a', b') :: writeByte rest a b

/-- The address of byte `k` of an access at `ea`; addresses wrap at 2^64 (log entry 11). -/
def byteAddr (ea : Word) (k : Nat) : Nat := (ea + BitVec.ofNat 64 k).toNat

/-- `MemRead(ea, 8)`, little-endian (00_scope R10). -/
def readWord (m : Memory) (ea : Word) : Word :=
  readByte m (byteAddr ea 7) ++ readByte m (byteAddr ea 6) ++ readByte m (byteAddr ea 5) ++ readByte m (byteAddr ea 4)
    ++ readByte m (byteAddr ea 3) ++ readByte m (byteAddr ea 2) ++ readByte m (byteAddr ea 1) ++ readByte m (byteAddr ea 0)

/-- Consecutive bytes written from the byte `k` of an access at `ea` on. -/
def writeBytes (ea : Word) : Memory → Nat → List Byte → Memory
  | m, _, [] => m
  | m, k, b :: bs => writeBytes ea (writeByte m (byteAddr ea k) b) (k + 1) bs

/-- The eight bytes of a word, the least significant first. -/
def wordBytes (v : Word) : List Byte :=
  [byteOf v 0, byteOf v 1, byteOf v 2, byteOf v 3, byteOf v 4, byteOf v 5, byteOf v 6, byteOf v 7]

/-- `MemWrite(ea, 8, v)`, little-endian (00_scope R10). -/
def writeWord (m : Memory) (ea : Word) (v : Word) : Memory := writeBytes ea m 0 (wordBytes v)

/-- `n` bytes read from the byte `k` of an access at `ea` on. -/
def readBytes (m : Memory) (ea : Word) : Nat → Nat → List Byte
  | _, 0 => []
  | k, n + 1 => readByte m (byteAddr ea k) :: readBytes m ea (k + 1) n

/-- The bytes at `rip`, as many as the longest form has (49 R191; log entry 24). -/
def fetchBytes (s : State) : List Byte := readBytes s.mem s.rip 0 maxLength

/-- Half of the canonical address range (log entry 8). -/
def canonicalHalf : LinearWidth → Nat
  | .bits48 => 2 ^ 47
  | .bits57 => 2 ^ 56

/-- The address is canonical: it lies in the lowest or the highest half range (49 R204; log entry 8). -/
def canonical (w : LinearWidth) (a : Nat) : Bool := decide (a < canonicalHalf w ∨ 2 ^ 64 - canonicalHalf w ≤ a)

/-- The region makes an access of this kind to this address fault. -/
def regionHits (kind : AccessKind) (a : Nat) (g : FaultRegion) : Bool :=
  decide (g.kind = kind) && decide (g.base ≤ a ∧ a < g.base + g.size)

/-- The page fault of an access to the bytes `k, k+1, ...` at `ea`: the first byte that a region of the kind covers, in
rising order, with the first such region's code (49 R204; log entry 9). -/
def findPageFault (gs : List FaultRegion) (kind : AccessKind) (ea : Word) : Nat → Nat → Option TargetException
  | _, 0 => none
  | k, n + 1 =>
    match gs.find? (regionHits kind (byteAddr ea k)) with
    | some g => some (.pageFault (BitVec.ofNat 64 (byteAddr ea k)) g.code)
    | none => findPageFault gs kind ea (k + 1) n

/-- Every one of the eight bytes at `ea` has a canonical address (log entry 11). -/
def canonicalWord (w : LinearWidth) (ea : Word) : Bool :=
  (List.range 8).all fun k => canonical w (byteAddr ea k)

/-- The fault of a non-canonical access in a segment (49 R204). -/
def segmentFault : Segment → TargetException
  | .ss => .stackFault
  | .ds => .generalProtection

/-- The fault that an 8-byte access raises, if any: non-canonical, then page fault, then alignment
(49 R204; log entry 7). -/
def accessFault (s : State) (kind : AccessKind) (seg : Segment) (ea : Word) : Option TargetException :=
  if canonicalWord s.linear ea then
    match findPageFault s.pageFaults kind ea 0 8 with
    | some e => some e
    | none =>
      if s.alignmentCheck ∧ s.cpl = 3 ∧ ea.toNat % 8 ≠ 0 then some .alignmentCheck else none
  else some (segmentFault seg)

/-- CR2 after a fault: the faulting address for #PF (49 R204). -/
def cr2After (e : TargetException) (old : Word) : Word :=
  match e with
  | .pageFault address _ => address
  | _ => old

/-- RAISING a target fault: it is recorded, CR2 receives a page fault's address, and nothing else changes; `rip` still
names the faulting instruction. The delivery is not described (49 R204; log entry 6). -/
def State.raiseFault (s : State) (e : TargetException) : State :=
  { s with exception := some e, cr2 := cr2After e s.cr2 }

/-- The block's answer stands on the port and the request is gone (92 D31; 60 R222). -/
def State.respond (s : State) (r : Response) : State := { s with request := none, response := some r }

end Sys2Proof.Machine
end

