-- ==== Sys2Proof/Machine/Flags.lean ====
section
/-! DEFINITION. Every flag computation of the emitted instructions: ADD (49 R197), SUB and CMP (R198, R199), and the
conditions of SETcc (R200). -/

namespace Sys2Proof.Machine

/-- The number of 1 bits in the low byte is even (R197). -/
def evenParity (r : Word) : Bool := ((List.range 8).filter fun k => r.getLsbD k).length % 2 == 0

/-- The integer does not fit the signed 64-bit range (R197, R198). -/
def signedOverflow (x : Int) : Bool := decide (¬(-2 ^ 63 ≤ x ∧ x ≤ 2 ^ 63 - 1))

/-- `(a + b) mod 2^64` (R197). -/
def sumOf (a b : Word) : Word := a + b

/-- `(a - b) mod 2^64` (R198). -/
def differenceOf (a b : Word) : Word := a - b

/-- The flags of ADD (R197). -/
def addFlags (a b : Word) : Flags where
  cf := decide (2 ^ 64 ≤ a.toNat + b.toNat)
  pf := evenParity (sumOf a b)
  af := decide (16 ≤ a.toNat % 16 + b.toNat % 16)
  zf := decide (sumOf a b = 0)
  sf := (sumOf a b).getLsbD 63
  ovf := signedOverflow (a.toInt + b.toInt)

/-- The flags of SUB and CMP (R198, R199). -/
def subFlags (a b : Word) : Flags where
  cf := decide (a.toNat < b.toNat)
  pf := evenParity (differenceOf a b)
  af := decide (a.toNat % 16 < b.toNat % 16)
  zf := decide (differenceOf a b = 0)
  sf := (differenceOf a b).getLsbD 63
  ovf := signedOverflow (a.toInt - b.toInt)

/-- The condition of a SETcc on the flags (R200). -/
def condHolds (c : Cond) (f : Flags) : Bool :=
  match c with
  | .e => f.zf
  | .ne => !f.zf
  | .g => !f.zf && f.sf == f.ovf
  | .l => f.sf != f.ovf
  | .ge => f.sf == f.ovf
  | .le => f.zf || f.sf != f.ovf

/-- `zext_8(cond)` (R200). -/
def condByte (b : Bool) : Byte := if b then 0x01 else 0x00

end Sys2Proof.Machine
end

