-- ==== Sys2Proof/Machine/Alu.lean ====
section
/-! DEFINITION. The register-register family on the target: ADD (49 R197), SUB (R198) and CMP (R199). -/

namespace Sys2Proof.Machine

/-- ADD: the sum and the six flags (R197). -/
def execAdd (dst src : Reg) (s : State) : Host.Outcome State Fault Refusal :=
  let a := readReg s.regs dst
  let b := readReg s.regs src
  .next (((s.setReg dst (sumOf a b)).setFlags (addFlags a b)).advance 3)

/-- SUB: the difference and the six flags (R198). -/
def execSub (dst src : Reg) (s : State) : Host.Outcome State Fault Refusal :=
  let a := readReg s.regs dst
  let b := readReg s.regs src
  .next (((s.setReg dst (differenceOf a b)).setFlags (subFlags a b)).advance 3)

/-- CMP: the six flags of SUB and no register (R199). -/
def execCmp (dst src : Reg) (s : State) : Host.Outcome State Fault Refusal :=
  let a := readReg s.regs dst
  let b := readReg s.regs src
  .next ((s.setFlags (subFlags a b)).advance 3)

end Sys2Proof.Machine
end

