-- ==== Sys2Proof/Machine/Operands.lean ====
section
/-! DEFINITION. The operand forms of the emitted instructions: effective addresses (49 R196), the segment of a base
(R196, R204), and the byte register of SETcc (R201). -/

namespace Sys2Proof.Machine

/-- `mod = 00`, rm neither 100 nor 101: `ea = x[addr]` (R196). -/
def eaPlain (f : RegFile) (addr : Reg) : Word := readReg f addr

/-- `mod = 00`, rm = 100, SIB 24: the base and no index (R196; 30 R60). -/
def eaSib (f : RegFile) (base : Reg) : Word := readReg f base

/-- `mod = 01`, rm = 101, disp8: the base plus the sign-extended displacement byte (R196). -/
def eaDisp8 (f : RegFile) (base : Reg) (disp : Byte) : Word := readReg f base + disp.signExtend 64

/-- The default segment of an access based on a register: SS for rsp and rbp, DS for the others; r12 and r13 are not
settled (R196, R204; log entry 10). -/
def baseSegment (base : Reg) : Segment :=
  match base with
  | .rsp | .rbp => .ss
  | .r12 | .r13 => if Config.extendedBaseIsStack base then .ss else .ds
  | .rax | .rcx | .rdx | .rbx | .rsi | .rdi | .r8 | .r9 | .r10 | .r11 | .r14 | .r15 => .ds

/-- Bits 7:0 of a register replaced, the other 56 kept (R201). -/
def setLowByte (w : Word) (b : Byte) : Word := w.extractLsb' 8 56 ++ b

/-- Bits 15:8 of a register replaced, the other 56 kept (R201). -/
def setHighByte (w : Word) (b : Byte) : Word := w.extractLsb' 16 48 ++ b ++ w.extractLsb' 0 8

/-- The register whose high byte AH, CH, DH or BH the number 4 to 7 selects without REX (R201). -/
def highByteReg (n : BitVec 3) : Reg := regOf .g0 (n - 4)

/-- A byte written to the register that a SETcc's ModRM `11 000 nnn` selects: with the REX byte 41 the low byte of
r8..r15; without REX the low byte of rax, rcx, rdx, rbx, or for 4 to 7 the high byte of these four (R201; 93 I1). -/
def writeByteReg (f : RegFile) (g : Group) (n : BitVec 3) (b : Byte) : RegFile :=
  if g = .g0 ∧ 4 ≤ n.toNat ∧ Config.setccHighByteQuirk then
    writeReg f (highByteReg n) (setHighByte (readReg f (highByteReg n)) b)
  else writeReg f (regOf g n) (setLowByte (readReg f (regOf g n)) b)

end Sys2Proof.Machine
end

