-- ==== Sys2Proof/Machine/Mov.lean ====
section
/-! DEFINITION. The move family on the target: loading an immediate (49 R192, R193), store (R194) and load (R195). None
writes a flag (R205). -/

namespace Sys2Proof.Machine

/-- A register receives an immediate, and `pc` moves on (R192, R193). -/
def loadImmediate (dst : Reg) (v : Word) (n : Nat) (s : State) : Host.Outcome State Fault Refusal :=
  .next ((s.setReg dst v).advance n)

/-- F-RI32: `x[dst] <- sext_64(imm32)` (R192). -/
def execMovImm32 (dst : Reg) (imm : BitVec 32) (s : State) : Host.Outcome State Fault Refusal :=
  loadImmediate dst (imm.signExtend 64) 7 s

/-- F-OI64: `x[dst] <- imm64` (R193). -/
def execMovImm64 (dst : Reg) (imm : BitVec 64) (s : State) : Host.Outcome State Fault Refusal :=
  loadImmediate dst imm 10 s

/-- `MemWrite(ea, 8, x[src])` for an address based on `base`, or the access's fault (R194, R204). -/
def storeAt (ea : Word) (base src : Reg) (n : Nat) (s : State) : Host.Outcome State Fault Refusal :=
  match accessFault s .write (baseSegment base) ea with
  | some e => .next (s.raiseFault e)
  | none => .next ((s.setMem (writeWord s.mem ea (readReg s.regs src))).advance n)

/-- F-MR-R (R194, R196). -/
def execStore (addr src : Reg) (s : State) : Host.Outcome State Fault Refusal :=
  storeAt (eaPlain s.regs addr) addr src 3 s

/-- F-MR-SIB (R194, R196). -/
def execStoreSib (addr src : Reg) (s : State) : Host.Outcome State Fault Refusal :=
  storeAt (eaSib s.regs addr) addr src 4 s

/-- F-MR-D8 (R194, R196). -/
def execStoreDisp8 (addr src : Reg) (s : State) : Host.Outcome State Fault Refusal :=
  storeAt (eaDisp8 s.regs addr disp8Zero) addr src 4 s

/-- `x[dst] <- MemRead(ea, 8)` for an address based on `base`, or the access's fault (R195, R204). -/
def loadAt (ea : Word) (base dst : Reg) (n : Nat) (s : State) : Host.Outcome State Fault Refusal :=
  match accessFault s .read (baseSegment base) ea with
  | some e => .next (s.raiseFault e)
  | none => .next ((s.setReg dst (readWord s.mem ea)).advance n)

/-- F-RM-R (R195, R196). -/
def execLoad (dst addr : Reg) (s : State) : Host.Outcome State Fault Refusal :=
  loadAt (eaPlain s.regs addr) addr dst 3 s

/-- F-RM-SIB (R195, R196). -/
def execLoadSib (dst addr : Reg) (s : State) : Host.Outcome State Fault Refusal :=
  loadAt (eaSib s.regs addr) addr dst 4 s

/-- F-RM-D8 (R195, R196). -/
def execLoadDisp8 (dst addr : Reg) (s : State) : Host.Outcome State Fault Refusal :=
  loadAt (eaDisp8 s.regs addr disp8Zero) addr dst 4 s

end Sys2Proof.Machine
end

