-- ==== Sys2Proof/Machine/Ret.lean ====
section
/-! DEFINITION. The near return on the target (49 R203). -/

namespace Sys2Proof.Machine

/-- `t <- MemRead(x[rsp], 8)`, `x[rsp] <- x[rsp] + 8`, `pc <- t`. The stack read is SS-based; a non-canonical target
raises #GP(0) and leaves rsp (R203, R204; log entry 6). -/
def execRet (s : State) : Host.Outcome State Fault Refusal :=
  let sp := readReg s.regs .rsp
  match accessFault s .read .ss sp with
  | some e => .next (s.raiseFault e)
  | none =>
    let t := readWord s.mem sp
    if canonical s.linear t.toNat then .next ((s.setReg .rsp (sp + 8)).jump t)
    else .next (s.raiseFault .generalProtection)

end Sys2Proof.Machine
end

