-- ==== Sys2Proof/Machine/SetCC.lean ====
section
/-! DEFINITION. The set-on-condition compounds on the target (49 R202): the zeroing move (R192), then the SETcc part
(R200, R201) on the unchanged flags (R205). One model step runs the compound (log entry 12). -/

namespace Sys2Proof.Machine

/-- The length of a SETcc part (30 R74). -/
def setPartLength : Group → Nat
  | .g0 => 3
  | .g1 => 4

/-- `0F 9x /0`, register-direct: the condition's byte to the byte register, and `pc` moves on (R200, R201). -/
def runSetPart (p : SetPart) (s : State) : State :=
  { s with regs := writeByteReg s.regs p.group p.number (condByte (condHolds p.cond s.flags)) }.advance
    (setPartLength p.group)

/-- A SETcc part that stands alone at `rip` (R200; log entry 13). -/
def execSetPart (p : SetPart) (s : State) : Host.Outcome State Fault Refusal := .next (runSetPart p s)

/-- The compound: `x[r] <- 0` and past 7 bytes, then the SETcc part (R202; 44 R175). -/
def setCompound (c : Cond) (g : Group) (r : Reg) (s : State) : Host.Outcome State Fault Refusal :=
  .next (runSetPart ⟨c, g, regField r⟩ ((s.setReg r 0).advance 7))

/-- sete, group 0 (R176, R202). -/
def execSeteG0 (r : Reg) (s : State) : Host.Outcome State Fault Refusal := setCompound .e .g0 r s
/-- sete, group 1 (R176, R202). -/
def execSeteG1 (r : Reg) (s : State) : Host.Outcome State Fault Refusal := setCompound .e .g1 r s
/-- setne, group 0 (R177, R202). -/
def execSetneG0 (r : Reg) (s : State) : Host.Outcome State Fault Refusal := setCompound .ne .g0 r s
/-- setne, group 1 (R177, R202). -/
def execSetneG1 (r : Reg) (s : State) : Host.Outcome State Fault Refusal := setCompound .ne .g1 r s
/-- setg, group 0 (R178, R202). -/
def execSetgG0 (r : Reg) (s : State) : Host.Outcome State Fault Refusal := setCompound .g .g0 r s
/-- setg, group 1 (R178, R202). -/
def execSetgG1 (r : Reg) (s : State) : Host.Outcome State Fault Refusal := setCompound .g .g1 r s
/-- setl, group 0 (R179, R202). -/
def execSetlG0 (r : Reg) (s : State) : Host.Outcome State Fault Refusal := setCompound .l .g0 r s
/-- setl, group 1 (R179, R202). -/
def execSetlG1 (r : Reg) (s : State) : Host.Outcome State Fault Refusal := setCompound .l .g1 r s
/-- setge, group 0 (R180, R202). -/
def execSetgeG0 (r : Reg) (s : State) : Host.Outcome State Fault Refusal := setCompound .ge .g0 r s
/-- setge, group 1 (R180, R202). -/
def execSetgeG1 (r : Reg) (s : State) : Host.Outcome State Fault Refusal := setCompound .ge .g1 r s
/-- setle, group 0 (R181, R202). -/
def execSetleG0 (r : Reg) (s : State) : Host.Outcome State Fault Refusal := setCompound .le .g0 r s
/-- setle, group 1 (R181, R202). -/
def execSetleG1 (r : Reg) (s : State) : Host.Outcome State Fault Refusal := setCompound .le .g1 r s

end Sys2Proof.Machine
end

