-- ==== Sys2Proof/Machine/Dispatch.lean ====
section
/-! DEFINITION. One arm per instruction. -/

namespace Sys2Proof.Machine

def exec (i : Instr) (s : State) : Host.Outcome State Fault Refusal :=
  match i with
  | .movImm32 dst imm => Sys2Proof.Machine.execMovImm32 dst imm s
  | .movImm64 dst imm => Sys2Proof.Machine.execMovImm64 dst imm s
  | .store addr src => Sys2Proof.Machine.execStore addr src s
  | .storeSib addr src => Sys2Proof.Machine.execStoreSib addr src s
  | .storeDisp8 addr src => Sys2Proof.Machine.execStoreDisp8 addr src s
  | .load dst addr => Sys2Proof.Machine.execLoad dst addr s
  | .loadSib dst addr => Sys2Proof.Machine.execLoadSib dst addr s
  | .loadDisp8 dst addr => Sys2Proof.Machine.execLoadDisp8 dst addr s
  | .add dst src => Sys2Proof.Machine.execAdd dst src s
  | .sub dst src => Sys2Proof.Machine.execSub dst src s
  | .cmp dst src => Sys2Proof.Machine.execCmp dst src s
  | .seteG0 r => Sys2Proof.Machine.execSeteG0 r s
  | .seteG1 r => Sys2Proof.Machine.execSeteG1 r s
  | .setneG0 r => Sys2Proof.Machine.execSetneG0 r s
  | .setneG1 r => Sys2Proof.Machine.execSetneG1 r s
  | .setgG0 r => Sys2Proof.Machine.execSetgG0 r s
  | .setgG1 r => Sys2Proof.Machine.execSetgG1 r s
  | .setlG0 r => Sys2Proof.Machine.execSetlG0 r s
  | .setlG1 r => Sys2Proof.Machine.execSetlG1 r s
  | .setgeG0 r => Sys2Proof.Machine.execSetgeG0 r s
  | .setgeG1 r => Sys2Proof.Machine.execSetgeG1 r s
  | .setleG0 r => Sys2Proof.Machine.execSetleG0 r s
  | .setleG1 r => Sys2Proof.Machine.execSetleG1 r s
  | .ret => Sys2Proof.Machine.execRet s

end Sys2Proof.Machine
end

