-- ==== Sys2Proof/Machine/Step.lean ====
section
/-! DEFINITION. One step: the block answers a pending request, or else the target runs the instruction at `rip`
(log entry 1); and the host's placing of an instruction. -/

namespace Sys2Proof.Machine

/-- The block's step: one request, one answer (00_scope R9; 70 R244). -/
def serve (rq : Request) (s : State) : Host.Outcome State Fault Refusal :=
  if Block.withinBound Config.maxLen (Block.answer rq) then .next (s.respond (Block.answer rq))
  else .refused .lengthBound

/-- The target's step: the instruction that the bytes at `rip` spell, or the SETcc part of a compound (49 R190;
30 R74). -/
def runTarget (s : State) : Host.Outcome State Fault Refusal :=
  match decode (fetchBytes s) with
  | .ok i => exec i s
  | .error e =>
    match decodeSetPart (fetchBytes s) with
    | some p => execSetPart p s
    | none => .refused (.undescribed e)

/-- One step of the machine. -/
def step (s : State) : Host.Outcome State Fault Refusal :=
  match s.request with
  | some rq => serve rq s
  | none =>
    match s.exception with
    | some e => .fault (.undelivered e)
    | none => runTarget s

/-- The host places a table word's bytes at `rip`, with no request and no undelivered fault in the way
(70 R238; log entries 15, 22). -/
def State.withFetchWord (s : State) (nbits w : Nat) : State :=
  { s with
    request := none
    exception := none
    mem := writeBytes s.rip s.mem 0 (tableBytes nbits w) }

end Sys2Proof.Machine
end

