-- ==== Sys2Proof/Safety.lean ====
section
/-! DEFINITION. The terms the statements use: when the target is ready to run, the invariant every step keeps, what each
form may write, and which parts of the state two states share. -/

namespace Sys2Proof.Safety

open Machine

/-- The next step is the target's: no request is pending and no fault waits for delivery. -/
abbrev Ready (s : State) : Prop := s.request = none ∧ s.exception = none

/-- CR2 holds the address of an undelivered page fault (49 R204). -/
def cr2Agrees (e : Option TargetException) (c : Word) : Bool :=
  match e with
  | some (.pageFault address _) => address == c
  | _ => true

/-- The invariant: memory in its canonical form, and CR2 at an undelivered page fault's address. -/
abbrev Inv (s : State) : Prop := Memory.wf s.mem = true ∧ cr2Agrees s.exception s.cr2 = true

/-- The registers a set-on-condition compound may write: the named one, and for numbers 4 to 7 of group 0 the one whose
high byte the SETcc selects (49 R202). -/
def setWrites (r : Reg) : List Reg :=
  if regGroup r = .g0 ∧ 4 ≤ regNumber r then [r, highByteReg (regField r)] else [r]

/-- The general registers a form may write: its destination, and rsp for ret (49 R192 to R203). -/
def writtenRegs : Instr → List Reg
  | .movImm32 d _ => [d]
  | .movImm64 d _ => [d]
  | .store _ _ => []
  | .storeSib _ _ => []
  | .storeDisp8 _ _ => []
  | .load d _ => [d]
  | .loadSib d _ => [d]
  | .loadDisp8 d _ => [d]
  | .add d _ => [d]
  | .sub d _ => [d]
  | .cmp _ _ => []
  | .seteG0 r => setWrites r
  | .seteG1 r => setWrites r
  | .setneG0 r => setWrites r
  | .setneG1 r => setWrites r
  | .setgG0 r => setWrites r
  | .setgG1 r => setWrites r
  | .setlG0 r => setWrites r
  | .setlG1 r => setWrites r
  | .setgeG0 r => setWrites r
  | .setgeG1 r => setWrites r
  | .setleG0 r => setWrites r
  | .setleG1 r => setWrites r
  | .ret => [.rsp]

/-- The forms that write flags: add, sub and cmp (49 R197, R198, R199, R203, R205). -/
def writesFlags : Instr → Bool
  | .add _ _ => true
  | .sub _ _ => true
  | .cmp _ _ => true
  | .movImm32 _ _ | .movImm64 _ _ | .store _ _ | .storeSib _ _ | .storeDisp8 _ _ | .load _ _ | .loadSib _ _
  | .loadDisp8 _ _ | .seteG0 _ | .seteG1 _ | .setneG0 _ | .setneG1 _ | .setgG0 _ | .setgG1 _ | .setlG0 _ | .setlG1 _
  | .setgeG0 _ | .setgeG1 _ | .setleG0 _ | .setleG1 _ | .ret => false

/-- The address a form stores eight bytes to, by the effective address its meaning uses; none for a form that stores
nothing (49 R194, R196). -/
def storeAddress (i : Instr) (s : State) : Option Word :=
  match i with
  | .store a _ => some (eaPlain s.regs a)
  | .storeSib a _ => some (eaSib s.regs a)
  | .storeDisp8 a _ => some (eaDisp8 s.regs a disp8Zero)
  | .movImm32 _ _ | .movImm64 _ _ | .load _ _ | .loadSib _ _ | .loadDisp8 _ _ | .add _ _ | .sub _ _ | .cmp _ _
  | .seteG0 _ | .seteG1 _ | .setneG0 _ | .setneG1 _ | .setgG0 _ | .setgG1 _ | .setlG0 _ | .setlG1 _ | .setgeG0 _
  | .setgeG1 _ | .setleG0 _ | .setleG1 _ | .ret => none

/-- The forms that access memory, the only ones that can raise a fault (49 R204). -/
def accessesMemory : Instr → Bool
  | .store _ _ | .storeSib _ _ | .storeDisp8 _ _ | .load _ _ | .loadSib _ _ | .loadDisp8 _ _ | .ret => true
  | .movImm32 _ _ | .movImm64 _ _ | .add _ _ | .sub _ _ | .cmp _ _ | .seteG0 _ | .seteG1 _ | .setneG0 _ | .setneG1 _
  | .setgG0 _ | .setgG1 _ | .setlG0 _ | .setlG1 _ | .setgeG0 _ | .setgeG1 _ | .setleG0 _ | .setleG1 _ => false

/-- The access checks of an eight-byte access pass: every byte's address is canonical, no region of the access's kind
covers a byte, and the address is aligned where alignment is checked at CPL 3 (49 R204). -/
abbrev AccessPasses (s : State) (kind : AccessKind) (ea : Word) : Prop :=
  (∀ k < 8, canonical s.linear (byteAddr ea k) = true) ∧
  (∀ g ∈ s.pageFaults, ∀ k < 8, regionHits kind (byteAddr ea k) g = false) ∧
  (s.alignmentCheck = true → s.cpl = 3 → ea.toNat % 8 = 0)

/-- The range of a size class: zero only for 0 bytes, the signed and unsigned union for 8, the two's-complement range of the
bytes for the others (41 R123; 90 C2, C3). -/
abbrev InSizeClass (k : Nat) (v : Int) : Prop :=
  if k = 0 then v = 0
  else if k = 8 then -2 ^ 63 ≤ v ∧ v ≤ 2 ^ 64 - 1
  else -2 ^ (8 * k - 1) ≤ v ∧ v ≤ 2 ^ (8 * k - 1) - 1

/-- R201's table: the register and the lowest bit of the byte that a SETcc's ModRM `11 000 nnn` selects. Without REX, 0 to 3
select AL, CL, DL, BL and 4 to 7 select AH, CH, DH, BH; with the REX byte 41, R8B to R15B. -/
def selectedByte : Group → BitVec 3 → Reg × Nat
  | .g0, 0 => (.rax, 0)
  | .g0, 1 => (.rcx, 0)
  | .g0, 2 => (.rdx, 0)
  | .g0, 3 => (.rbx, 0)
  | .g0, 4 => (.rax, 8)
  | .g0, 5 => (.rcx, 8)
  | .g0, 6 => (.rdx, 8)
  | .g0, 7 => (.rbx, 8)
  | .g1, 0 => (.r8, 0)
  | .g1, 1 => (.r9, 0)
  | .g1, 2 => (.r10, 0)
  | .g1, 3 => (.r11, 0)
  | .g1, 4 => (.r12, 0)
  | .g1, 5 => (.r13, 0)
  | .g1, 6 => (.r14, 0)
  | .g1, 7 => (.r15, 0)

/-- The port and the paging and privilege data are the same. -/
abbrev SameSurroundings (s t : State) : Prop :=
  t.request = s.request ∧ t.response = s.response ∧ t.pageFaults = s.pageFaults ∧ t.linear = s.linear ∧
    t.alignmentCheck = s.alignmentCheck ∧ t.cpl = s.cpl

/-- Everything but the general registers, the flags, `rip` and memory is the same. -/
abbrev SameApart (s t : State) : Prop := SameSurroundings s t ∧ t.cr2 = s.cr2 ∧ t.exception = s.exception

end Sys2Proof.Safety
end

