-- ==== Sys2Proof/Certificates/Slice0/Obligations.lean ====
section
/-! DEFINITION. The statements for the provers. Statements about the block formalise rules of files 00 to 45 and 60; statements about
the target rest on 49_target_meaning, which the spec marks as general knowledge (log entry 3). -/

open Sys2Proof Sys2Proof.Machine Sys2Proof.Safety

/-! ## BitVector -/

/-- R106: a non-negative integer below 2^n survives `fromInteger` at length n and the unsigned reading. -/
def Obligations.UnsignedRoundTrip : Prop :=
  ∀ v n : Nat, 1 ≤ n → v < 2 ^ n → ∃ b, Bits.fromIntegerLen (v : Int) n = Except.ok b ∧ Bits.uint b = v

/-- R107: the two's-complement pattern of a negative integer that n bits can hold. -/
def Obligations.TwosComplementPattern : Prop :=
  ∀ (v : Int) (n : Nat), 1 ≤ n → -2 ^ (n - 1) ≤ v → v < 0 →
    ∃ b, Bits.fromIntegerLen v n = Except.ok b ∧ Bits.len b = n ∧ (Bits.uint b : Int) = 2 ^ n + v ∧ b.head? = some true

/-- R90, R91, R114, R216, 90 C1: `fromInteger` at a length fails exactly out of the range, only with OutOfRange, and an
accepted value has the length. -/
def Obligations.FromIntegerFailsExactly : Prop :=
  ∀ (v : Int) (n : Nat),
    (Bits.fromIntegerLen v n = Except.error EncError.outOfRange ↔ n = 0 ∨ 2 ^ n ≤ v ∨ v < -2 ^ (n - 1)) ∧
    (∀ e, Bits.fromIntegerLen v n = Except.error e → e = EncError.outOfRange) ∧
    (∀ b, Bits.fromIntegerLen v n = Except.ok b → Bits.len b = n)

/-- R112: the signed reading takes back every value of the signed range. -/
def Obligations.SignedReadingRoundTrip : Prop :=
  ∀ (v : Int) (n : Nat), 1 ≤ n → -2 ^ (n - 1) ≤ v → v < 2 ^ (n - 1) →
    ∃ b, Bits.fromIntegerLen v n = Except.ok b ∧ Bits.sint b = v

/-- R108: byte reversal is an involution on byte-aligned vectors. -/
def Obligations.ByteReversalInvolution : Prop :=
  ∀ x : BitVector, Bits.len x % 8 = 0 → ∃ y, Bits.reversedBytes x = Except.ok y ∧ Bits.reversedBytes y = Except.ok x

/-- R109: hex text and nibble-aligned vectors are inverse, in the other direction up to case and the 0x prefix. -/
def Obligations.HexRoundTrip : Prop :=
  (∀ x : BitVector, Bits.len x % 4 = 0 → ∃ t, Bits.toHex x = Except.ok t ∧ Bits.fromHex t = Except.ok x) ∧
  (∀ (t : Text) (b : BitVector), Bits.fromHex t = Except.ok b →
    Bits.toHex b = Except.ok ((Bits.dropHexMarker t).map Char.toUpper))

/-- R110: join is associative with the empty vector as identity, adds lengths, and weighs its left part. -/
def Obligations.JoinLaws : Prop :=
  ∀ a b c : BitVector,
    Bits.join [Bits.join [a, b], c] = Bits.join [a, Bits.join [b, c]] ∧
    Bits.join [Bits.zeros 0, a] = a ∧ Bits.join [a, Bits.zeros 0] = a ∧
    Bits.len (Bits.join [a, b]) = Bits.len a + Bits.len b ∧
    Bits.uint (Bits.join [a, b]) = Bits.uint a * 2 ^ Bits.len b + Bits.uint b

/-- R111: the reversal of a join is the join of the reversals in the other order. -/
def Obligations.ReversalOfJoin : Prop :=
  ∀ a b : BitVector, Bits.len a % 8 = 0 → Bits.len b % 8 = 0 →
    ∃ a' b', Bits.reversedBytes a = Except.ok a' ∧ Bits.reversedBytes b = Except.ok b' ∧
      Bits.reversedBytes (a ++ b) = Except.ok (b' ++ a')

/-- R98, R99, R100, R113, R46: the alignment checks fail exactly on misaligned vectors, only with AlignmentError. -/
def Obligations.AlignmentChecksExactly : Prop :=
  ∀ (v : BitVector) (e : EncError),
    (Bits.reversedBytes v = Except.error e ↔ e = EncError.alignmentError ∧ Bits.len v % 8 ≠ 0) ∧
    (Bits.byteLength v = Except.error e ↔ e = EncError.alignmentError ∧ Bits.len v % 8 ≠ 0) ∧
    (Bits.bytes v = Except.error e ↔ e = EncError.alignmentError ∧ Bits.len v % 8 ≠ 0) ∧
    (Bits.toHex v = Except.error e ↔ e = EncError.alignmentError ∧ Bits.len v % 4 ≠ 0)

/-- R94, R95: an accepted offset sum comes back as its value, in whole nibbles, without a leading zero digit. -/
def Obligations.OffsetHexValue : Prop :=
  ∀ (hex : Text) (offset : Int) (b : BitVector), Bits.fromHex hex = Except.ok b → 1 ≤ Bits.len b →
    0 ≤ (Bits.uint b : Int) + offset →
    ∃ w, Bits.fromHexWithOffset hex offset = Except.ok w ∧ (Bits.uint w : Int) = Bits.uint b + offset ∧
      Bits.len w % 4 = 0 ∧ 4 ≤ Bits.len w ∧ (4 < Bits.len w → 2 ^ (Bits.len w - 4) ≤ Bits.uint w)

/-- R64: the full-form opcode is the byte B8 plus the register's number, its bits 2:0 the number, its bits 7:3 10111. -/
def Obligations.FullFormOpcode : Prop :=
  ∀ r : Reg, ∃ op, Bits.fromHexWithOffset opcMovOI64Base (regNumber r) = Except.ok op ∧
    Bits.len op = 8 ∧ Bits.uint op = 0xB8 + regNumber r ∧
    Bits.slice op 5 8 = Except.ok (Policy.regbits r) ∧
    Bits.slice op 0 5 = Except.ok [true, false, true, true, true]

/-! ## Policies -/

/-- R122: the closed form of the REX table. -/
def Obligations.RexTableClosedForm : Prop :=
  ∀ reg1 reg2 : Reg,
    Bits.uint (Policy.rexFor reg1 reg2) = 0x48 + 4 * groupBit (regGroup reg2) + groupBit (regGroup reg1)

/-- R123: the size class is the smallest of 0, 1, 2, 4, 8 bytes whose range contains the value (0 only for zero; for 8 the
union range), and a value outside every range fails with UnsupportedImmediateSize. -/
def Obligations.ImmSizeIsSmallestClass : Prop :=
  ∀ v : Int,
    (∀ k : Nat, Policy.immSize v = Except.ok k ↔
      k ∈ [0, 1, 2, 4, 8] ∧ InSizeClass k v ∧ ∀ j ∈ [0, 1, 2, 4, 8], j < k → ¬InSizeClass j v) ∧
    (∀ e, Policy.immSize v = Except.error e ↔
      e = EncError.unsupportedImmediateSize ∧ ∀ k ∈ [0, 1, 2, 4, 8], ¬InSizeClass k v)

/-- R62, R63, R126, R43: the immediate coders give the pattern of the value, least significant byte first. -/
def Obligations.ImmediatesLittleEndian : Prop :=
  (∀ v : Int, -2 ^ 31 ≤ v → v < 2 ^ 32 → ∃ im, Policy.imm32 v = Except.ok im ∧
    Bits.bytes im = Except.ok ((List.range 4).map fun k => BitVec.ofNat 8 ((v % 2 ^ 32).toNat / 256 ^ k))) ∧
  (∀ v : Int, -2 ^ 63 ≤ v → v < 2 ^ 64 → ∃ im, Policy.imm64 v = Except.ok im ∧
    Bits.bytes im = Except.ok ((List.range 8).map fun k => BitVec.ofNat 8 ((v % 2 ^ 64).toNat / 256 ^ k)))

/-- R128: the addressing policy, decided by the number alone. -/
def Obligations.AddressingPolicy : Prop :=
  ∀ a : Reg,
    (regNumber a = 5 → Policy.addrMode a = ([false, true], Bits.byteBits 0x00)) ∧
    (regNumber a = 4 → Policy.addrMode a = ([false, false], Bits.byteBits 0x24)) ∧
    (regNumber a ≠ 4 → regNumber a ≠ 5 → Policy.addrMode a = ([false, false], []))

/-! ## The block's outputs -/

/-- R145: move-immediate takes the compact form for a 32-bit signed value, the full form for the rest of the envelope, and
fails outside it. -/
def Obligations.MovImmOutput : Prop :=
  ∀ (d : Reg) (v : Int),
    (-2 ^ 31 ≤ v → v ≤ 2 ^ 31 - 1 → ∃ out, Block.encode (.movImm d v) = Except.ok out ∧
      Bits.bytes out = Except.ok ([BitVec.ofNat 8 (0x48 + groupBit (regGroup d)), 0xC7#8, BitVec.ofNat 8 (0xC0 + regNumber d)] ++
        (List.range 4).map fun k => BitVec.ofNat 8 ((v % 2 ^ 32).toNat / 256 ^ k))) ∧
    (¬(-2 ^ 31 ≤ v ∧ v ≤ 2 ^ 31 - 1) → -2 ^ 63 ≤ v → v ≤ 2 ^ 64 - 1 → ∃ out, Block.encode (.movImm d v) = Except.ok out ∧
      Bits.bytes out = Except.ok ([BitVec.ofNat 8 (0x48 + groupBit (regGroup d)), BitVec.ofNat 8 (0xB8 + regNumber d)] ++
        (List.range 8).map fun k => BitVec.ofNat 8 ((v % 2 ^ 64).toNat / 256 ^ k))) ∧
    (v < -2 ^ 63 ∨ 2 ^ 64 - 1 < v → Block.encode (.movImm d v) = Except.error EncError.unsupportedImmediateSize)

/-- R149, R151: store and load emit REX, the opcode, ModRM by the addressing policy and its trailing byte, with the address
register in rm and the other register in reg. -/
def Obligations.StoreAndLoadOutput : Prop :=
  ∀ a x : Reg,
    let rex := 0x48 + 4 * groupBit (regGroup x) + groupBit (regGroup a)
    let modRM := (if regNumber a = 5 then 0x40 else 0) + 8 * regNumber x + regNumber a
    let tail : List Byte := if regNumber a = 4 then [0x24#8] else if regNumber a = 5 then [0x00#8] else []
    (∃ out, Block.encode (.movStore a x) = Except.ok out ∧
      Bits.bytes out = Except.ok ([BitVec.ofNat 8 rex, 0x89#8, BitVec.ofNat 8 modRM] ++ tail)) ∧
    (∃ out, Block.encode (.movLoad x a) = Except.ok out ∧
      Bits.bytes out = Except.ok ([BitVec.ofNat 8 rex, 0x8B#8, BitVec.ofNat 8 modRM] ++ tail))

/-- R165 to R168: add, sub and cmp emit REX, their opcode and ModRM 11 source destination, for every register pair. -/
def Obligations.AluOutput : Prop :=
  ∀ (op : AluOp) (d s : Reg), ∃ out, Block.encode (.alu op d s) = Except.ok out ∧
    Bits.bytes out = Except.ok [BitVec.ofNat 8 (0x48 + 4 * groupBit (regGroup s) + groupBit (regGroup d)),
      (match op with | .add => 0x01#8 | .sub => 0x29#8 | .cmp => 0x39#8),
      BitVec.ofNat 8 (0xC0 + 8 * regNumber s + regNumber d)]

/-- R175 to R181: set-on-condition emits the compact move of 0, the byte 41 for group 1 only, the condition's opcode and
ModRM 11 000 and the number. -/
def Obligations.SetOnConditionOutput : Prop :=
  ∀ (c : Cond) (r : Reg), ∃ z out, Block.encode (.movImm r 0) = Except.ok z ∧
    Block.encode (.setCC c r) = Except.ok out ∧
    ∃ zb, Bits.bytes z = Except.ok zb ∧
      Bits.bytes out = Except.ok (zb ++ (match regGroup r with | .g0 => [] | .g1 => [0x41#8]) ++
        [0x0F#8, (match c with | .e => 0x94#8 | .ne => 0x95#8 | .g => 0x9F#8 | .l => 0x9C#8 | .ge => 0x9D#8 | .le => 0x9E#8),
          BitVec.ofNat 8 (0xC0 + regNumber r)])

/-- R185: return is the single byte C3. -/
def Obligations.RetOutput : Prop :=
  ∃ out, Block.encode .ret = Except.ok out ∧ Bits.bytes out = Except.ok [0xC3#8]

/-- R219: the only error of `encode` is UnsupportedImmediateSize, raised by the size policy and hence by move-immediate,
exactly for a value outside the envelope; so no AlignmentError comes out of `encode` (R226). -/
def Obligations.EncodeFailsExactly : Prop :=
  (∀ v : Int, Policy.immSize v = Except.error EncError.unsupportedImmediateSize ↔ 2 ^ 64 - 1 < v ∨ v < -2 ^ 63) ∧
  (∀ (d : Descriptor) (e : EncError), Block.encode d = Except.error e ↔
    e = EncError.unsupportedImmediateSize ∧ ∃ dst v, d = .movImm dst v ∧ (2 ^ 64 - 1 < v ∨ v < -2 ^ 63))

/-- R56: the length of every output in bytes, by the descriptor. -/
def Obligations.OutputLengths : Prop :=
  ∀ (d : Descriptor) (out : BitVector), Block.encode d = Except.ok out →
    Bits.byteLength out = Except.ok (match d with
      | .movImm _ v => if -2 ^ 31 ≤ v ∧ v ≤ 2 ^ 31 - 1 then 7 else 10
      | .movStore a _ => if regNumber a = 4 ∨ regNumber a = 5 then 4 else 3
      | .movLoad _ a => if regNumber a = 4 ∨ regNumber a = 5 then 4 else 3
      | .alu _ _ _ => 3
      | .setCC _ r => 10 + groupBit (regGroup r)
      | .ret => 1)

/-- R65 to R72 (refinement): what the block computes from its policies is, byte for byte, the format diagram of the
descriptor's table row, and it fails exactly where the descriptor has no row. -/
def Obligations.BlockEmitsItsForm : Prop :=
  ∀ d : Descriptor,
    (∀ e, Block.encode d = Except.error e ↔ formOf d = Except.error e) ∧
    (∀ out, Block.encode d = Except.ok out →
      ∃ i, formOf d = Except.ok i ∧ i.emitted = true ∧ Bits.bytes out = Except.ok (encode i))

/-- R73: the decoder takes the descriptor back from the block's output, but for a negative full-form immediate, which it
reads as that value plus 2^64 (93 I3). -/
def Obligations.OutputRecoversDescriptor : Prop :=
  ∀ (d : Descriptor) (out : BitVector), Block.encode d = Except.ok out →
    ∃ bs i, Bits.bytes out = Except.ok bs ∧ decode bs = Except.ok i ∧
      (descriptorOf i = d ∨
        ∃ dst v, d = .movImm dst v ∧ -2 ^ 63 ≤ v ∧ v < -2 ^ 31 ∧ descriptorOf i = .movImm dst (v + 2 ^ 64))

/-- R73, 90 C10, 93 I3: v and v - 2^64 give the same bytes exactly below 2^64 - 2^31, and always different texts. -/
def Obligations.EqualBytesBand : Prop :=
  ∀ (d : Reg) (v : Int), 2 ^ 63 ≤ v → v ≤ 2 ^ 64 - 1 →
    (Block.encode (.movImm d v) = Block.encode (.movImm d (v - 2 ^ 64)) ↔ v ≤ 2 ^ 64 - 2 ^ 31 - 1) ∧
    Block.render (.movImm d v) ≠ Block.render (.movImm d (v - 2 ^ 64))

/-- R148: the rendered text of a move-immediate determines its value. -/
def Obligations.RenderedValueIsFaithful : Prop :=
  ∀ (d : Reg) (v w : Int), Block.render (.movImm d v) = Block.render (.movImm d w) → v = w

/-! ## Encoding and decoding -/

/-- R83: the bytes of a well-formed instruction match its row of the opcode table and no other row. -/
def Obligations.EncodingMatchesOneRow : Prop :=
  ∀ i j : Instr, i.wellFormed = true →
    (rowOf i).admits (encode i) = true ∧ ((rowOf j).admits (encode i) = true → rowOf j = rowOf i)

/-- R65 to R72: decoding the bytes of a well-formed instruction gives it back, whatever follows, unless what follows completes
a zeroing move to a compound (log entry 12). -/
def Obligations.DecodeOfEncode : Prop :=
  ∀ (i : Instr) (rest : List Byte), i.wellFormed = true → startsCompound i rest = false →
    decode (encode i ++ rest) = Except.ok i

/-- R65 to R72, R75 to R77: what the decoder accepts begins with the bytes of the well-formed instruction it answers. -/
def Obligations.DecodeIsSound : Prop :=
  ∀ (bs : List Byte) (i : Instr), decode bs = Except.ok i →
    i.wellFormed = true ∧ ∃ rest, bs = encode i ++ rest ∧ startsCompound i rest = false

/-- R74: the length read from the leading bytes of an output is the form's, and a set-on-condition reads as a 7-byte
instruction followed by one of 3 or 4 bytes. -/
def Obligations.StreamLengths : Prop :=
  (∀ (i : Instr) (rest : List Byte), i.wellFormed = true → (∀ c g r, i ≠ setInstr c g r) →
    unitLength (encode i ++ rest) = some (formLength i)) ∧
  (∀ (c : Cond) (r : Reg) (rest : List Byte),
    let bs := encode (setInstr c (regGroup r) r)
    unitLength (bs ++ rest) = some 7 ∧
    unitLength (bs.drop 7 ++ rest) = some (3 + groupBit (regGroup r)) ∧ bs.length = 10 + groupBit (regGroup r))

/-- R65 to R72: words written out bit by bit from the format diagrams decode to what they stand for. -/
def Obligations.DiagramWordsDecode : Prop :=
  decode [0b01001001#8, 0b11000111#8, 0b11000011#8, 0b10000000#8, 0b11111111#8, 0b11111111#8, 0b11111111#8] =
    Except.ok (.movImm32 .r11 (-128#32)) ∧
  decode [0b01001001#8, 0b10111100#8, 1#8, 8#8, 0x89#8, 0xA1#8, 0x8C#8, 0xA9#8, 0x54#8, 0xAB#8] =
    Except.ok (.movImm64 .r12 12345678900000000001#64) ∧
  decode [0b01001100#8, 0b10001001#8, 0b00111000#8] = Except.ok (.store .rax .r15) ∧
  decode [0b01001001#8, 0b10001011#8, 0b00010100#8, 0b00100100#8] = Except.ok (.loadSib .rdx .r12) ∧
  decode [0b01001001#8, 0b00101001#8, 0b11101001#8] = Except.ok (.sub .r9 .rbp) ∧
  decode [0b01001001#8, 0b11000111#8, 0b11000100#8, 0#8, 0#8, 0#8, 0#8, 0b01000001#8, 0b00001111#8, 0b10011111#8,
    0b11000100#8] = Except.ok (.setgG1 .r12) ∧
  decode [0b11000011#8] = Except.ok .ret

/-! ## The machine -/

/-- R236: after reset the block is ready. The rest is the model's choice. Log entries 4 and 5: no fault waits, rsp and rip
stand where 95 L3 starts, every other register is 0, and every byte reads 0. Log entries 8 and 9: no canonical access faults,
with 48-bit addresses, no fault regions and alignment checking off. -/
def Obligations.ResetStart : Prop :=
  Ready State.reset ∧ readReg State.reset.regs .rsp = 0x00007fffffffe000#64 ∧
    (∀ r, r ≠ .rsp → readReg State.reset.regs r = 0) ∧ State.reset.rip = 0x500000#64 ∧
    (∀ a, readByte State.reset.mem a = 0) ∧ (∀ kind ea, (∀ k < 8, canonical .bits48 (byteAddr ea k) = true) →
      AccessPasses State.reset kind ea)

/-- The model's invariant holds after reset: the canonical form of target memory (log entry 5) and the start values (log
entry 4) are the model's choice. -/
def Obligations.InvariantAtReset : Prop := Inv State.reset

/-- Every step keeps memory in its canonical form (the model's, log entry 5), and CR2 at the address of an undelivered page
fault (49 R204; log entry 6). -/
def Obligations.InvariantKept : Prop :=
  ∀ s t : State, Inv s → step s = .next t → Inv t

/-- R9, R222, R244 (log entries 1, 2): a pending request is answered in one step; the port then holds the answer and no
request, and nothing else has changed. -/
def Obligations.RequestIsAnswered : Prop :=
  ∀ (s : State) (rq : Request), s.request = some rq →
    ∃ t, step s = .next t ∧ t.response = some (Block.answer rq) ∧ t.request = none ∧ t.regs = s.regs ∧
      t.flags = s.flags ∧ t.rip = s.rip ∧ t.mem = s.mem ∧ t.cr2 = s.cr2 ∧ t.exception = s.exception ∧
      t.pageFaults = s.pageFaults ∧ t.linear = s.linear ∧ t.alignmentCheck = s.alignmentCheck ∧ t.cpl = s.cpl

/-- R20, R49: a request gets the same answer before or after a step of the target, and the target reaches the same state
with or without the request. -/
def Obligations.RequestsDoNotInterfere : Prop :=
  ∀ (s t : State) (rq : Request), Ready s → step s = .next t →
    ∃ u v, step { s with request := some rq } = .next u ∧ u.response = some (Block.answer rq) ∧
      step u = .next v ∧ step { t with request := some rq } = .next v ∧ v = { t with response := some (Block.answer rq) }

/-- 49 R190, R191: a step of the target runs the instruction that the bytes at `rip` decode to. -/
def Obligations.StepRunsDecoded : Prop :=
  ∀ (s : State) (i : Instr), Ready s → decode (fetchBytes s) = Except.ok i → step s = exec i s

/-- 49 R200, R201, 30 R74 (log entry 13): the SETcc part of a compound that stands alone at `rip` runs as the machine
instruction it is: the eight bits that R201's table selects receive the condition, the other 56 bits of that register, every
other register and every flag keep their values, and `rip` moves past 3 or 4 bytes. -/
def Obligations.LoneSetPartRuns : Prop :=
  ∀ (s : State) (p : SetPart) (rest : List Byte), Ready s → fetchBytes s = bytesSetPart p ++ rest →
    ∃ t, step s = .next t ∧ t.flags = s.flags ∧ t.mem = s.mem ∧ SameApart s t ∧
      t.rip = s.rip + BitVec.ofNat 64 (3 + groupBit p.group) ∧
      (let q := (selectedByte p.group p.number).1
       let lo := (selectedByte p.group p.number).2
       (readReg t.regs q).extractLsb' lo 8 = (if condHolds p.cond s.flags then 1 else 0) ∧
       (∀ k, k < lo ∨ lo + 8 ≤ k → (readReg t.regs q).getLsbD k = (readReg s.regs q).getLsbD k) ∧
       (∀ r, r ≠ q → readReg t.regs r = readReg s.regs r))

/-- 49 R190, R204 (log entries 6, 16): the target stops by name on an undelivered fault, and on bytes that are no output
form and no SETcc part. -/
def Obligations.TargetStopsByName : Prop :=
  (∀ (s : State) (e : TargetException), s.request = none → s.exception = some e → step s = .fault (.undelivered e)) ∧
  (∀ (s : State) (e : DecodeError), Ready s → decode (fetchBytes s) = Except.error e →
    decodeSetPart (fetchBytes s) = none → step s = .refused (.undescribed e))

/-- 49 R190 (soundness of the whole): where the block's output for a descriptor stands at `rip`, one step of the target runs
the descriptor's form (unless what follows completes a zeroing move to a compound, log entry 12). -/
def Obligations.EmittedBytesRun : Prop :=
  ∀ (s : State) (d : Descriptor) (out : BitVector) (bs rest : List Byte) (i : Instr),
    Block.encode d = Except.ok out → Bits.bytes out = Except.ok bs → formOf d = Except.ok i → Ready s →
    fetchBytes s = bs ++ rest → startsCompound i rest = false → step s = exec i s

/-- 49 R192, R193: the bytes of a move-immediate, in either form, load the value modulo 2^64 into the register and change
nothing else but `rip`. -/
def Obligations.MovImmBytesLoadTheValue : Prop :=
  ∀ (s : State) (d : Reg) (v : Int) (out : BitVector) (bs rest : List Byte),
    Block.encode (.movImm d v) = Except.ok out → Bits.bytes out = Except.ok bs → Ready s →
    fetchBytes s = bs ++ rest → (v = 0 → setPartFor d rest = none) →
    ∃ t, step s = .next t ∧ ((readReg t.regs d).toNat : Int) = v % 2 ^ 64 ∧
      (∀ r, r ≠ d → readReg t.regs r = readReg s.regs r) ∧ t.flags = s.flags ∧ t.mem = s.mem ∧
      t.rip = s.rip + BitVec.ofNat 64 bs.length ∧ SameApart s t

/-- No step changes the paging and privilege data, and a step of the target leaves the port alone. Both are the model's
choice: that the paging and privilege data are fixed is log entry 9's, and the port is log entry 2's. -/
def Obligations.SurroundingsKept : Prop :=
  ∀ s t : State, step s = .next t →
    t.pageFaults = s.pageFaults ∧ t.linear = s.linear ∧ t.alignmentCheck = s.alignmentCheck ∧ t.cpl = s.cpl ∧
      t.request = none ∧ (s.request = none → t.response = s.response)

/-! ## Frames -/

/-- 49 R192 to R203: an instruction leaves every general register alone but those its form writes. -/
def Obligations.RegisterFrame : Prop :=
  ∀ (i : Instr) (s t : State), i.wellFormed = true → exec i s = .next t →
    ∀ r, r ∉ writtenRegs i → readReg t.regs r = readReg s.regs r

/-- 49 R203, R205: only add, sub and cmp write flags: the moves, the set-on-conditions and ret write none. -/
def Obligations.FlagFrame : Prop :=
  ∀ (i : Instr) (s t : State), writesFlags i = false → exec i s = .next t → t.flags = s.flags

/-- 49 R194, R196: every byte of memory outside the eight that a store form writes reads as before, and all of memory for a
form that stores nothing. -/
def Obligations.MemoryFrame : Prop :=
  ∀ (i : Instr) (s t : State), Memory.wf s.mem = true → exec i s = .next t →
    (storeAddress i s = none → ∀ a, readByte t.mem a = readByte s.mem a) ∧
    (∀ ea, storeAddress i s = some ea → ∀ a, (∀ k < 8, a ≠ byteAddr ea k) → readByte t.mem a = readByte s.mem a)

/-- 49 R204: a form without a memory access raises no fault and leaves CR2 alone; a form with one that raises nothing leaves
CR2 alone. That no instruction changes the port or the paging and privilege data is the model's choice (log entries 2, 9). -/
def Obligations.FaultRegisterFrame : Prop :=
  ∀ (i : Instr) (s t : State), exec i s = .next t →
    SameSurroundings s t ∧
    (accessesMemory i = false → t.exception = s.exception ∧ t.cr2 = s.cr2) ∧
    (s.exception = none → t.exception = none → t.cr2 = s.cr2)

/-! ## What each instruction does -/

/-- 49 R192, R193: both immediate forms complete in every state: the register holds the sign-extended 32-bit or the 64-bit
immediate, and everything but it and `rip` is as before. -/
def Obligations.ImmediateLoadsComplete : Prop :=
  ∀ (s : State) (d : Reg),
    (∀ imm : BitVec 32, ∃ t, exec (.movImm32 d imm) s = .next t ∧ (readReg t.regs d).toInt = imm.toInt ∧
      (∀ r, r ≠ d → readReg t.regs r = readReg s.regs r) ∧ t.flags = s.flags ∧ t.mem = s.mem ∧ t.rip = s.rip + 7 ∧
      SameApart s t) ∧
    (∀ imm : BitVec 64, ∃ t, exec (.movImm64 d imm) s = .next t ∧ readReg t.regs d = imm ∧
      (∀ r, r ≠ d → readReg t.regs r = readReg s.regs r) ∧ t.flags = s.flags ∧ t.mem = s.mem ∧ t.rip = s.rip + 10 ∧
      SameApart s t)

/-- 49 R194, R196: the three store forms complete where the access passes: the eight bytes at x[addr] hold the source,
least significant first, every other byte reads as before, and only memory and `rip` change. -/
def Obligations.StoresComplete : Prop :=
  ∀ (s : State) (a x : Reg) (i : Instr) (n : Nat),
    (i, n) ∈ [(.store a x, 3), (.storeSib a x, 4), (.storeDisp8 a x, 4)] → Memory.wf s.mem = true →
    AccessPasses s .write (readReg s.regs a) →
    ∃ t, exec i s = .next t ∧
      (∀ k < 8, readByte t.mem (byteAddr (readReg s.regs a) k) = byteOf (readReg s.regs x) k) ∧
      (∀ b, (∀ k < 8, b ≠ byteAddr (readReg s.regs a) k) → readByte t.mem b = readByte s.mem b) ∧
      t.regs = s.regs ∧ t.flags = s.flags ∧ t.rip = s.rip + BitVec.ofNat 64 n ∧ SameApart s t

/-- 49 R195, R196: the three load forms complete where the access passes: the register's bytes, least significant first, are
the eight bytes at the old x[addr], also where the register is the address register, and only it and `rip` change. -/
def Obligations.LoadsComplete : Prop :=
  ∀ (s : State) (d a : Reg) (i : Instr) (n : Nat),
    (i, n) ∈ [(.load d a, 3), (.loadSib d a, 4), (.loadDisp8 d a, 4)] → AccessPasses s .read (readReg s.regs a) →
    ∃ t, exec i s = .next t ∧
      (∀ k < 8, byteOf (readReg t.regs d) k = readByte s.mem (byteAddr (readReg s.regs a) k)) ∧
      (∀ r, r ≠ d → readReg t.regs r = readReg s.regs r) ∧ t.flags = s.flags ∧ t.mem = s.mem ∧
      t.rip = s.rip + BitVec.ofNat 64 n ∧ SameApart s t

/-- 49 R197: add completes in every state with the sum modulo 2^64 and the six flags of the rule. -/
def Obligations.AddCompletes : Prop :=
  ∀ (s : State) (d x : Reg),
    let a := readReg s.regs d
    let b := readReg s.regs x
    ∃ t, exec (.add d x) s = .next t ∧ (readReg t.regs d).toNat = (a.toNat + b.toNat) % 2 ^ 64 ∧
      (t.flags.cf = true ↔ 2 ^ 64 ≤ a.toNat + b.toNat) ∧
      (t.flags.ovf = true ↔ ¬(-2 ^ 63 ≤ a.toInt + b.toInt ∧ a.toInt + b.toInt ≤ 2 ^ 63 - 1)) ∧
      (t.flags.sf = true ↔ (readReg t.regs d).toInt < 0) ∧ (t.flags.zf = true ↔ readReg t.regs d = 0) ∧
      (t.flags.pf = true ↔ ((List.range 8).countP fun k => (readReg t.regs d).getLsbD k) % 2 = 0) ∧
      (t.flags.af = true ↔ 16 ≤ a.toNat % 16 + b.toNat % 16) ∧
      (∀ r, r ≠ d → readReg t.regs r = readReg s.regs r) ∧ t.mem = s.mem ∧ t.rip = s.rip + 3 ∧ SameApart s t

/-- 49 R198: sub completes in every state with the difference modulo 2^64 and the six flags of the rule; of a register and
itself it leaves 0 with ZF and PF set and the others clear. -/
def Obligations.SubCompletes : Prop :=
  ∀ (s : State) (d x : Reg),
    let a := readReg s.regs d
    let b := readReg s.regs x
    ∃ t, exec (.sub d x) s = .next t ∧ ((readReg t.regs d).toNat : Int) = (a.toNat - b.toNat : Int) % 2 ^ 64 ∧
      (t.flags.cf = true ↔ a.toNat < b.toNat) ∧
      (t.flags.ovf = true ↔ ¬(-2 ^ 63 ≤ a.toInt - b.toInt ∧ a.toInt - b.toInt ≤ 2 ^ 63 - 1)) ∧
      (t.flags.sf = true ↔ (readReg t.regs d).toInt < 0) ∧ (t.flags.zf = true ↔ readReg t.regs d = 0) ∧
      (t.flags.pf = true ↔ ((List.range 8).countP fun k => (readReg t.regs d).getLsbD k) % 2 = 0) ∧
      (t.flags.af = true ↔ a.toNat % 16 < b.toNat % 16) ∧
      (d = x → readReg t.regs d = 0 ∧ t.flags = ⟨false, true, false, true, false, false⟩) ∧
      (∀ r, r ≠ d → readReg t.regs r = readReg s.regs r) ∧ t.mem = s.mem ∧ t.rip = s.rip + 3 ∧ SameApart s t

/-- 49 R199: cmp completes in every state: the flags are those that sub of the same registers leaves, and no register is
written. -/
def Obligations.CmpCompletes : Prop :=
  ∀ (s : State) (d x : Reg),
    ∃ t u, exec (.cmp d x) s = .next t ∧ exec (.sub d x) s = .next u ∧ t.flags = u.flags ∧ t.regs = s.regs ∧
      t.mem = s.mem ∧ t.rip = s.rip + 3 ∧ SameApart s t

/-- 49 R199, R200: after cmp the six conditions are the equality and the signed comparisons of the two registers. -/
def Obligations.CompareThenCondition : Prop :=
  ∀ (s t : State) (d x : Reg), exec (.cmp d x) s = .next t →
    let a := readReg s.regs d
    let b := readReg s.regs x
    (condHolds .e t.flags = true ↔ a = b) ∧ (condHolds .ne t.flags = true ↔ a ≠ b) ∧
      (condHolds .g t.flags = true ↔ b.toInt < a.toInt) ∧ (condHolds .l t.flags = true ↔ a.toInt < b.toInt) ∧
      (condHolds .ge t.flags = true ↔ b.toInt ≤ a.toInt) ∧ (condHolds .le t.flags = true ↔ a.toInt ≤ b.toInt)

/-- 49 R202: the twelve set-on-condition forms complete in every state; for rax, rcx, rdx, rbx and r8 to r15 the register
holds 1 or 0 by the condition on the old flags, and only it and `rip` change. -/
def Obligations.SetOnConditionCompletes : Prop :=
  ∀ (s : State) (c : Cond) (r : Reg), r ∉ [.rsp, .rbp, .rsi, .rdi] →
    ∃ t, exec (setInstr c (regGroup r) r) s = .next t ∧
      readReg t.regs r = (if condHolds c s.flags then 1 else 0) ∧
      (∀ x, x ≠ r → readReg t.regs x = readReg s.regs x) ∧ t.flags = s.flags ∧ t.mem = s.mem ∧
      t.rip = s.rip + BitVec.ofNat 64 (10 + groupBit (regGroup r)) ∧ SameApart s t

/-- 49 R202, 70 R242: for rsp, rbp, rsi and rdi the named register ends as 0, and bits 15:8 of rax, rcx, rdx or rbx receive
the condition, the other 56 bits and every other register staying. -/
def Obligations.SetOnConditionHighByte : Prop :=
  ∀ (s : State) (c : Cond) (r h : Reg), (r, h) ∈ [(.rsp, .rax), (.rbp, .rcx), (.rsi, .rdx), (.rdi, .rbx)] →
    ∃ t, exec (setInstr c .g0 r) s = .next t ∧ readReg t.regs r = 0 ∧
      (readReg t.regs h).extractLsb' 8 8 = (if condHolds c s.flags then 1 else 0) ∧
      (readReg t.regs h).extractLsb' 0 8 = (readReg s.regs h).extractLsb' 0 8 ∧
      (readReg t.regs h).extractLsb' 16 48 = (readReg s.regs h).extractLsb' 16 48 ∧
      (∀ x, x ≠ r → x ≠ h → readReg t.regs x = readReg s.regs x) ∧ t.flags = s.flags ∧ t.mem = s.mem ∧
      t.rip = s.rip + 10 ∧ SameApart s t

/-- 44 R175, 49 R202 (log entry 12): where the compound's bytes stand at `rip`, the one step of the model that runs it
reaches the state that its two machine instructions reach, the zeroing move and then the SETcc part. -/
def Obligations.CompoundIsTwoInstructions : Prop :=
  ∀ (s : State) (c : Cond) (r : Reg) (rest : List Byte), Ready s →
    fetchBytes s = encode (setInstr c (regGroup r) r) ++ rest →
    ∃ u t, exec (.movImm32 r 0) s = .next u ∧ execSetPart ⟨c, regGroup r, regField r⟩ u = .next t ∧ step s = .next t

/-- 49 R203: ret completes where the stack read passes and the popped address is canonical: `rip` holds the eight bytes at
rsp, little-endian, rsp is 8 higher, and nothing else changes. -/
def Obligations.RetCompletes : Prop :=
  ∀ s : State, AccessPasses s .read (readReg s.regs .rsp) →
    canonical s.linear (readWord s.mem (readReg s.regs .rsp)).toNat = true →
    ∃ t, exec .ret s = .next t ∧
      (∀ k < 8, byteOf t.rip k = readByte s.mem (byteAddr (readReg s.regs .rsp) k)) ∧
      readReg t.regs .rsp = readReg s.regs .rsp + 8 ∧
      (∀ r, r ≠ .rsp → readReg t.regs r = readReg s.regs r) ∧ t.flags = s.flags ∧ t.mem = s.mem ∧ SameApart s t

/-- 49 R204: an eight-byte access raises nothing exactly where its checks pass; a non-canonical one raises the segment's
fault; a canonical one with a byte covered by a region of its kind raises a page fault; a canonical one that no region covers
raises #AC(0) where it is unaligned and alignment is checked at CPL 3; a page fault names a byte of the access that a region of
its kind covers, and that region's code. The order, the width, the regions and the wrap are the model's (log entries 7, 8, 9,
11). -/
def Obligations.AccessFaultsExactly : Prop :=
  ∀ (s : State) (kind : AccessKind) (seg : Segment) (ea : Word),
    (accessFault s kind seg ea = none ↔ AccessPasses s kind ea) ∧
    ((∃ k < 8, canonical s.linear (byteAddr ea k) = false) →
      accessFault s kind seg ea = some (match seg with | .ss => .stackFault | .ds => .generalProtection)) ∧
    ((∀ k < 8, canonical s.linear (byteAddr ea k) = true) →
      ((∃ g ∈ s.pageFaults, ∃ k < 8, regionHits kind (byteAddr ea k) g = true) →
        ∃ address code, accessFault s kind seg ea = some (.pageFault address code)) ∧
      ((∀ g ∈ s.pageFaults, ∀ k < 8, regionHits kind (byteAddr ea k) g = false) →
        s.alignmentCheck = true → s.cpl = 3 → ea.toNat % 8 ≠ 0 →
        accessFault s kind seg ea = some .alignmentCheck)) ∧
    (∀ address code, accessFault s kind seg ea = some (.pageFault address code) →
      ∃ k < 8, ∃ g ∈ s.pageFaults, regionHits kind (byteAddr ea k) g = true ∧ address.toNat = byteAddr ea k ∧ code = g.code)

/-- 49 R204 (log entry 6): a store, load or ret whose access faults records the fault, CR2 receives a page fault's address, and
nothing else changes; so does ret, with #GP(0), for a non-canonical target. -/
def Obligations.MemoryFormsRaise : Prop :=
  ∀ (s : State) (e : TargetException) (i : Instr),
    (∃ a x, i ∈ [Instr.store a x, .storeSib a x, .storeDisp8 a x] ∧
      accessFault s .write (baseSegment a) (readReg s.regs a) = some e) ∨
    (∃ d a, i ∈ [Instr.load d a, .loadSib d a, .loadDisp8 d a] ∧
      accessFault s .read (baseSegment a) (readReg s.regs a) = some e) ∨
    (i = .ret ∧ accessFault s .read .ss (readReg s.regs .rsp) = some e) ∨
    (i = .ret ∧ accessFault s .read .ss (readReg s.regs .rsp) = none ∧
      canonical s.linear (readWord s.mem (readReg s.regs .rsp)).toNat = false ∧ e = .generalProtection) →
    ∃ t, exec i s = .next t ∧ t.exception = some e ∧
      (∀ address code, e = .pageFault address code → t.cr2 = address) ∧
      ((∀ address code, e ≠ .pageFault address code) → t.cr2 = s.cr2) ∧
      t.regs = s.regs ∧ t.flags = s.flags ∧ t.rip = s.rip ∧ t.mem = s.mem ∧ SameSurroundings s t

/-- 49 R200: the condition table, over every value of the flags. -/
def Obligations.ConditionTable : Prop :=
  ∀ f : Flags,
    (condHolds .e f = true ↔ f.zf = true) ∧ (condHolds .ne f = true ↔ f.zf = false) ∧
      (condHolds .g f = true ↔ f.zf = false ∧ f.sf = f.ovf) ∧ (condHolds .l f = true ↔ f.sf ≠ f.ovf) ∧
      (condHolds .ge f = true ↔ f.sf = f.ovf) ∧ (condHolds .le f = true ↔ f.zf = true ∨ f.sf ≠ f.ovf)
end

