-- ==== Sys2Proof/Laws/Bits.lean ====
section
/-! SUPPORT. The small laws of the BitVector operations: lengths, the unsigned reading of a pattern, and the groups. -/

namespace Sys2Proof.Bits

@[simp] theorem len_nil : len [] = 0 := rfl
@[simp] theorem len_cons (b : Bool) (v : BitVector) : len (b :: v) = len v + 1 := rfl
@[simp] theorem len_append (v w : BitVector) : len (v ++ w) = len v + len w := by simp [len]
@[simp] theorem len_zeros (n : Nat) : len (zeros n) = n := by simp [len, zeros]
@[simp] theorem len_ones (n : Nat) : len (ones n) = n := by simp [len, ones]
@[simp] theorem len_map_not (v : BitVector) : len (v.map not) = len v := by simp [len]

/-- A pattern has the asked length. -/
@[simp] theorem len_pattern (n v : Nat) : len (pattern n v) = n := by
  induction n with
  | zero => rfl
  | succ n ih => simp [pattern, ih]

/-- The unsigned reading is below 2 to the length (R101). -/
theorem uint_lt (v : BitVector) : uint v < 2 ^ len v := by
  induction v with
  | nil => simp [uint]
  | cons b v ih =>
    rw [uint, len_cons, Nat.pow_succ]
    cases b <;> simp <;> omega

/-- A pattern reads back as the value modulo 2 to the length. -/
theorem uint_pattern (n v : Nat) : uint (pattern n v) = v % 2 ^ n := by
  induction n with
  | zero => simp [pattern, uint, Nat.mod_one]
  | succ n ih =>
    rw [pattern, uint, len_pattern, ih, Nat.mod_pow_succ, Nat.testBit_eq_decide_div_mod_eq]
    have h := Nat.mod_two_eq_zero_or_one (v / 2 ^ n)
    rcases h with h | h <;> simp [h, Nat.add_comm]

/-- Two vectors of one length with one unsigned reading are equal. -/
theorem eq_of_uint_eq {v w : BitVector} (hl : len v = len w) (hu : uint v = uint w) : v = w := by
  induction v generalizing w with
  | nil =>
    cases w with
    | nil => rfl
    | cons => simp at hl
  | cons b v ih =>
    cases w with
    | nil => simp at hl
    | cons c w =>
      simp only [len_cons, Nat.add_right_cancel_iff] at hl
      simp only [uint, hl] at hu
      have h1 := uint_lt v
      have h2 := uint_lt w
      rw [hl] at h1
      have hb : b = c := by
        cases b <;> cases c <;> simp at hu ⊢ <;> omega
      subst hb
      rw [ih hl (by omega)]

/-- The unsigned reading of a concatenation (R110). -/
theorem uint_append (v w : BitVector) : uint (v ++ w) = uint v * 2 ^ len w + uint w := by
  induction v with
  | nil => simp [uint]
  | cons b v ih =>
    rw [List.cons_append, uint, len_append, ih, uint, Nat.pow_add]
    ring

@[simp] theorem uint_zeros (n : Nat) : uint (zeros n) = 0 := by
  induction n with
  | zero => rfl
  | succ n ih => simpa [zeros, List.replicate_succ, uint] using ih

theorem uint_ones (n : Nat) : uint (ones n) + 1 = 2 ^ n := by
  induction n with
  | zero => rfl
  | succ n ih =>
    have h : ones (n + 1) = true :: ones n := rfl
    rw [h, uint, len_ones, Nat.pow_succ]
    simp only [Bool.toNat_true]
    omega

/-- A vector and its complement read together as all ones. -/
theorem uint_map_not (v : BitVector) : uint (v.map not) + uint v + 1 = 2 ^ len v := by
  induction v with
  | nil => rfl
  | cons b v ih =>
    rw [List.map_cons, uint, uint, len_map_not, len_cons, Nat.pow_succ]
    cases b <;> simp <;> omega

/-- The natural representation reads back as its value (R89). -/
@[simp] theorem uint_natural (v : Nat) : uint (natural v) = v := by
  rw [natural, uint_pattern, Nat.mod_eq_of_lt Nat.lt_log2_self]

/-- The natural representation's length (R89). -/
@[simp] theorem len_natural (v : Nat) : len (natural v) = v.log2 + 1 := len_pattern _ _

/-- A value fits `n` bits exactly where its natural representation is no longer than `n`, for `n` from 1 on. -/
theorem len_natural_le {v n : Nat} (hn : 1 ≤ n) : len (natural v) ≤ n ↔ v < 2 ^ n := by
  rw [len_natural]
  by_cases hv : v = 0
  · subst hv
    simp [hn]
  · rw [Nat.add_one_le_iff, Nat.log2_lt hv]

/-- Groups of whole size, put together, are the vector (20 R41). -/
theorem join_groups (k : Nat) (m : Nat) (v : BitVector) (h : len v = m * k) : join (groups k m v) = v := by
  induction m generalizing v with
  | zero =>
    have : v = [] := List.eq_nil_of_length_eq_zero (by simpa [len] using h)
    simp [groups, join, this]
  | succ m ih =>
    have hd : len (v.drop k) = m * k := by
      simp only [len, List.length_drop] at h ⊢
      rw [h, Nat.succ_mul]
      omega
    have := ih (v.drop k) hd
    simp only [join] at this
    simp [groups, join, this]

/-- The groups of a concatenation whose left part is whole. -/
theorem groups_append (k m n : Nat) (v w : BitVector) (h : len v = m * k) :
    groups k (m + n) (v ++ w) = groups k m v ++ groups k n w := by
  induction m generalizing v with
  | zero =>
    have : v = [] := List.eq_nil_of_length_eq_zero (by simpa [len] using h)
    simp [groups, this]
  | succ m ih =>
    have hk : k ≤ v.length := by
      simp only [len] at h
      rw [h, Nat.succ_mul]
      omega
    have hd : len (v.drop k) = m * k := by
      simp only [len, List.length_drop] at h ⊢
      rw [h, Nat.succ_mul]
      omega
    rw [Nat.succ_add, groups, groups, List.take_append_of_le_length hk, List.drop_append_of_le_length hk, ih _ hd]
    rfl

/-- Every group of a whole vector has the group's size. -/
theorem len_of_mem_groups (k m : Nat) (v : BitVector) (h : len v = m * k) : ∀ g ∈ groups k m v, len g = k := by
  induction m generalizing v with
  | zero => simp [groups]
  | succ m ih =>
    have hk : k ≤ v.length := by
      simp only [len] at h
      rw [h, Nat.succ_mul]
      omega
    have hd : len (v.drop k) = m * k := by
      simp only [len, List.length_drop] at h ⊢
      rw [h, Nat.succ_mul]
      omega
    intro g hg
    rcases List.mem_cons.1 hg with rfl | hg
    · simp [len, hk]
    · exact ih _ hd g hg

/-- There are as many groups as asked for. -/
@[simp] theorem length_groups (k m : Nat) (v : BitVector) : (groups k m v).length = m := by
  induction m generalizing v with
  | zero => rfl
  | succ m ih => simp [groups, ih]

/-- Equal groups join to a whole vector whose groups they are. -/
theorem groups_join (k : Nat) (gs : List BitVector) (h : ∀ g ∈ gs, len g = k) : groups k gs.length (join gs) = gs := by
  induction gs with
  | nil => rfl
  | cons g gs ih =>
    have hg : g.length = k := h g (by simp)
    have := ih fun x hx => h x (by simp [hx])
    simp only [join] at this
    simp [groups, join, ← hg, List.take_left', List.drop_left']
    rw [hg]
    exact this

/-- The length of a join of equal groups. -/
theorem len_join (k : Nat) (gs : List BitVector) (h : ∀ g ∈ gs, len g = k) : len (join gs) = gs.length * k := by
  induction gs with
  | nil => simp [join]
  | cons g gs ih =>
    have hg : g.length = k := h g (by simp)
    have := ih fun x hx => h x (by simp [hx])
    simp only [join, len] at this
    simp [join, len, hg, this, Nat.succ_mul, Nat.add_comm]

end Sys2Proof.Bits
end

