-- ==== Sys2Proof/Laws/Decode.lean ====
section
/-! SUPPORT. The small laws of the encoding fields: ModRM, REX, register numbers, immediates and the SETcc part. -/

namespace Sys2Proof

/-- A ModRM byte gives back its three fields (30 R59). -/
theorem modRM_fields : ∀ (m : BitVec 2) (reg rm : BitVec 3),
    modOf (modRM m reg rm) = m ∧ regFieldOf (modRM m reg rm) = reg ∧ rmOf (modRM m reg rm) = rm := by decide

/-- Every byte is the ModRM of its fields (30 R59). -/
theorem modRM_of_fields : ∀ b : Byte, modRM (modOf b) (regFieldOf b) (rmOf b) = b := by decide

/-- A REX byte gives back the two groups, and is not the return opcode (30 R57). -/
theorem rexGroups_rexByte (rm reg : Reg) :
    rexGroups (rexByte rm reg) = some (regGroup reg, regGroup rm) ∧ rexByte rm reg ≠ opcRet := by
  cases rm <;> cases reg <;> decide

/-- Only the REX byte of two groups reads as them (30 R57). -/
theorem rexTab_of_rexGroups {b : Byte} {r g : Group} (h : rexGroups b = some (r, g)) : b = rexTab g r := by
  unfold rexGroups at h
  repeat' split at h
  all_goals simp at h
  all_goals rcases h with ⟨rfl, rfl⟩; assumption

/-- The register of a group and a number has that group and number (10_state R21). -/
theorem regOf_fields (g : Group) (n : BitVec 3) : regGroup (regOf g n) = g ∧ regField (regOf g n) = n := by
  cases g <;> revert n <;> decide

/-- The 3-bit field is 4 or 5 exactly where the number is (10_state R21). -/
theorem regField_special (r : Reg) :
    (regField r = 4 ↔ regNumber r = 4) ∧ (regField r = 5 ↔ regNumber r = 5) := by
  cases r <;> decide

/-- The bytes of a 32-bit immediate, put together, are the immediate (30 R62). -/
theorem imm32_of_bytes (v : BitVec 32) : byteOf v 3 ++ byteOf v 2 ++ byteOf v 1 ++ byteOf v 0 = v := by
  ext i hi
  simp only [byteOf, BitVec.getElem_append, BitVec.getElem_extractLsb']
  have : i < 32 := hi
  interval_cases i <;> simp

/-- An opcode pair that reads as a condition is that condition's (10_state R27). -/
theorem ccOp_of_condOf {b0 b1 : Byte} {c : Cond} (h : condOf b0 b1 = some c) : b0 = (ccOp c).1 ∧ b1 = (ccOp c).2 := by
  unfold condOf at h
  repeat' split at h
  all_goals simp at h
  all_goals subst h; simp_all [ccOp]

/-- The bytes of a SETcc part read as it, whatever follows (30 R70, R71). -/
theorem decodeSetPart_bytesSetPart (p : SetPart) (rest : List Byte) :
    decodeSetPart (bytesSetPart p ++ rest) = some p := by
  obtain ⟨c, g, n⟩ := p
  have m := modRM_fields modDirect 0 n
  simp at m
  cases c <;> cases g <;> simp [bytesSetPart, decodeSetPart, setBody, condOf, ccOp, rexBOnly, m]

end Sys2Proof
end

