-- ==== Sys2Proof/Laws/State.lean ====
section
/-! SUPPORT. One lemma per field per update of the state, and the register file's read-after-write laws. -/

namespace Sys2Proof.Machine

@[simp] theorem State.setReg_request (s : State) (r : Reg) (v : Word) : (s.setReg r v).request = s.request := rfl
@[simp] theorem State.setReg_response (s : State) (r : Reg) (v : Word) : (s.setReg r v).response = s.response := rfl
@[simp] theorem State.setReg_regs (s : State) (r : Reg) (v : Word) : (s.setReg r v).regs = writeReg s.regs r v := rfl
@[simp] theorem State.setReg_flags (s : State) (r : Reg) (v : Word) : (s.setReg r v).flags = s.flags := rfl
@[simp] theorem State.setReg_rip (s : State) (r : Reg) (v : Word) : (s.setReg r v).rip = s.rip := rfl
@[simp] theorem State.setReg_mem (s : State) (r : Reg) (v : Word) : (s.setReg r v).mem = s.mem := rfl
@[simp] theorem State.setReg_cr2 (s : State) (r : Reg) (v : Word) : (s.setReg r v).cr2 = s.cr2 := rfl
@[simp] theorem State.setReg_exception (s : State) (r : Reg) (v : Word) : (s.setReg r v).exception = s.exception := rfl
@[simp] theorem State.setReg_pageFaults (s : State) (r : Reg) (v : Word) : (s.setReg r v).pageFaults = s.pageFaults := rfl
@[simp] theorem State.setReg_linear (s : State) (r : Reg) (v : Word) : (s.setReg r v).linear = s.linear := rfl
@[simp] theorem State.setReg_alignmentCheck (s : State) (r : Reg) (v : Word) : (s.setReg r v).alignmentCheck = s.alignmentCheck := rfl
@[simp] theorem State.setReg_cpl (s : State) (r : Reg) (v : Word) : (s.setReg r v).cpl = s.cpl := rfl

@[simp] theorem State.setFlags_request (s : State) (f : Flags) : (s.setFlags f).request = s.request := rfl
@[simp] theorem State.setFlags_response (s : State) (f : Flags) : (s.setFlags f).response = s.response := rfl
@[simp] theorem State.setFlags_regs (s : State) (f : Flags) : (s.setFlags f).regs = s.regs := rfl
@[simp] theorem State.setFlags_flags (s : State) (f : Flags) : (s.setFlags f).flags = f := rfl
@[simp] theorem State.setFlags_rip (s : State) (f : Flags) : (s.setFlags f).rip = s.rip := rfl
@[simp] theorem State.setFlags_mem (s : State) (f : Flags) : (s.setFlags f).mem = s.mem := rfl
@[simp] theorem State.setFlags_cr2 (s : State) (f : Flags) : (s.setFlags f).cr2 = s.cr2 := rfl
@[simp] theorem State.setFlags_exception (s : State) (f : Flags) : (s.setFlags f).exception = s.exception := rfl
@[simp] theorem State.setFlags_pageFaults (s : State) (f : Flags) : (s.setFlags f).pageFaults = s.pageFaults := rfl
@[simp] theorem State.setFlags_linear (s : State) (f : Flags) : (s.setFlags f).linear = s.linear := rfl
@[simp] theorem State.setFlags_alignmentCheck (s : State) (f : Flags) : (s.setFlags f).alignmentCheck = s.alignmentCheck := rfl
@[simp] theorem State.setFlags_cpl (s : State) (f : Flags) : (s.setFlags f).cpl = s.cpl := rfl

@[simp] theorem State.setMem_request (s : State) (m : Memory) : (s.setMem m).request = s.request := rfl
@[simp] theorem State.setMem_response (s : State) (m : Memory) : (s.setMem m).response = s.response := rfl
@[simp] theorem State.setMem_regs (s : State) (m : Memory) : (s.setMem m).regs = s.regs := rfl
@[simp] theorem State.setMem_flags (s : State) (m : Memory) : (s.setMem m).flags = s.flags := rfl
@[simp] theorem State.setMem_rip (s : State) (m : Memory) : (s.setMem m).rip = s.rip := rfl
@[simp] theorem State.setMem_mem (s : State) (m : Memory) : (s.setMem m).mem = m := rfl
@[simp] theorem State.setMem_cr2 (s : State) (m : Memory) : (s.setMem m).cr2 = s.cr2 := rfl
@[simp] theorem State.setMem_exception (s : State) (m : Memory) : (s.setMem m).exception = s.exception := rfl
@[simp] theorem State.setMem_pageFaults (s : State) (m : Memory) : (s.setMem m).pageFaults = s.pageFaults := rfl
@[simp] theorem State.setMem_linear (s : State) (m : Memory) : (s.setMem m).linear = s.linear := rfl
@[simp] theorem State.setMem_alignmentCheck (s : State) (m : Memory) : (s.setMem m).alignmentCheck = s.alignmentCheck := rfl
@[simp] theorem State.setMem_cpl (s : State) (m : Memory) : (s.setMem m).cpl = s.cpl := rfl

@[simp] theorem State.advance_request (s : State) (n : Nat) : (s.advance n).request = s.request := rfl
@[simp] theorem State.advance_response (s : State) (n : Nat) : (s.advance n).response = s.response := rfl
@[simp] theorem State.advance_regs (s : State) (n : Nat) : (s.advance n).regs = s.regs := rfl
@[simp] theorem State.advance_flags (s : State) (n : Nat) : (s.advance n).flags = s.flags := rfl
@[simp] theorem State.advance_rip (s : State) (n : Nat) : (s.advance n).rip = s.rip + BitVec.ofNat 64 n := rfl
@[simp] theorem State.advance_mem (s : State) (n : Nat) : (s.advance n).mem = s.mem := rfl
@[simp] theorem State.advance_cr2 (s : State) (n : Nat) : (s.advance n).cr2 = s.cr2 := rfl
@[simp] theorem State.advance_exception (s : State) (n : Nat) : (s.advance n).exception = s.exception := rfl
@[simp] theorem State.advance_pageFaults (s : State) (n : Nat) : (s.advance n).pageFaults = s.pageFaults := rfl
@[simp] theorem State.advance_linear (s : State) (n : Nat) : (s.advance n).linear = s.linear := rfl
@[simp] theorem State.advance_alignmentCheck (s : State) (n : Nat) : (s.advance n).alignmentCheck = s.alignmentCheck := rfl
@[simp] theorem State.advance_cpl (s : State) (n : Nat) : (s.advance n).cpl = s.cpl := rfl

@[simp] theorem State.jump_request (s : State) (t : Word) : (s.jump t).request = s.request := rfl
@[simp] theorem State.jump_response (s : State) (t : Word) : (s.jump t).response = s.response := rfl
@[simp] theorem State.jump_regs (s : State) (t : Word) : (s.jump t).regs = s.regs := rfl
@[simp] theorem State.jump_flags (s : State) (t : Word) : (s.jump t).flags = s.flags := rfl
@[simp] theorem State.jump_rip (s : State) (t : Word) : (s.jump t).rip = t := rfl
@[simp] theorem State.jump_mem (s : State) (t : Word) : (s.jump t).mem = s.mem := rfl
@[simp] theorem State.jump_cr2 (s : State) (t : Word) : (s.jump t).cr2 = s.cr2 := rfl
@[simp] theorem State.jump_exception (s : State) (t : Word) : (s.jump t).exception = s.exception := rfl
@[simp] theorem State.jump_pageFaults (s : State) (t : Word) : (s.jump t).pageFaults = s.pageFaults := rfl
@[simp] theorem State.jump_linear (s : State) (t : Word) : (s.jump t).linear = s.linear := rfl
@[simp] theorem State.jump_alignmentCheck (s : State) (t : Word) : (s.jump t).alignmentCheck = s.alignmentCheck := rfl
@[simp] theorem State.jump_cpl (s : State) (t : Word) : (s.jump t).cpl = s.cpl := rfl

@[simp] theorem State.raiseFault_request (s : State) (e : TargetException) : (s.raiseFault e).request = s.request := rfl
@[simp] theorem State.raiseFault_response (s : State) (e : TargetException) : (s.raiseFault e).response = s.response := rfl
@[simp] theorem State.raiseFault_regs (s : State) (e : TargetException) : (s.raiseFault e).regs = s.regs := rfl
@[simp] theorem State.raiseFault_flags (s : State) (e : TargetException) : (s.raiseFault e).flags = s.flags := rfl
@[simp] theorem State.raiseFault_rip (s : State) (e : TargetException) : (s.raiseFault e).rip = s.rip := rfl
@[simp] theorem State.raiseFault_mem (s : State) (e : TargetException) : (s.raiseFault e).mem = s.mem := rfl
@[simp] theorem State.raiseFault_cr2 (s : State) (e : TargetException) : (s.raiseFault e).cr2 = cr2After e s.cr2 := rfl
@[simp] theorem State.raiseFault_exception (s : State) (e : TargetException) : (s.raiseFault e).exception = some e := rfl
@[simp] theorem State.raiseFault_pageFaults (s : State) (e : TargetException) : (s.raiseFault e).pageFaults = s.pageFaults := rfl
@[simp] theorem State.raiseFault_linear (s : State) (e : TargetException) : (s.raiseFault e).linear = s.linear := rfl
@[simp] theorem State.raiseFault_alignmentCheck (s : State) (e : TargetException) : (s.raiseFault e).alignmentCheck = s.alignmentCheck := rfl
@[simp] theorem State.raiseFault_cpl (s : State) (e : TargetException) : (s.raiseFault e).cpl = s.cpl := rfl

@[simp] theorem State.respond_request (s : State) (r : Response) : (s.respond r).request = none := rfl
@[simp] theorem State.respond_response (s : State) (r : Response) : (s.respond r).response = some r := rfl
@[simp] theorem State.respond_regs (s : State) (r : Response) : (s.respond r).regs = s.regs := rfl
@[simp] theorem State.respond_flags (s : State) (r : Response) : (s.respond r).flags = s.flags := rfl
@[simp] theorem State.respond_rip (s : State) (r : Response) : (s.respond r).rip = s.rip := rfl
@[simp] theorem State.respond_mem (s : State) (r : Response) : (s.respond r).mem = s.mem := rfl
@[simp] theorem State.respond_cr2 (s : State) (r : Response) : (s.respond r).cr2 = s.cr2 := rfl
@[simp] theorem State.respond_exception (s : State) (r : Response) : (s.respond r).exception = s.exception := rfl
@[simp] theorem State.respond_pageFaults (s : State) (r : Response) : (s.respond r).pageFaults = s.pageFaults := rfl
@[simp] theorem State.respond_linear (s : State) (r : Response) : (s.respond r).linear = s.linear := rfl
@[simp] theorem State.respond_alignmentCheck (s : State) (r : Response) : (s.respond r).alignmentCheck = s.alignmentCheck := rfl
@[simp] theorem State.respond_cpl (s : State) (r : Response) : (s.respond r).cpl = s.cpl := rfl

/-- A register reads back what was written to it. -/
@[simp] theorem readReg_writeReg_same (f : RegFile) (r : Reg) (v : Word) : readReg (writeReg f r v) r = v := by
  cases r <;> rfl

/-- A write leaves every other register alone. -/
theorem readReg_writeReg_other (f : RegFile) (r r' : Reg) (v : Word) (h : r' ≠ r) :
    readReg (writeReg f r v) r' = readReg f r' := by
  cases r <;> cases r' <;> first | rfl | exact absurd rfl h

/-- Both laws in one equation. -/
theorem readReg_writeReg (f : RegFile) (r r' : Reg) (v : Word) :
    readReg (writeReg f r v) r' = if r' = r then v else readReg f r' := by
  by_cases h : r' = r
  · subst h; simp
  · simp [h, readReg_writeReg_other]

/-- A second write to a register replaces the first. -/
@[simp] theorem writeReg_writeReg_same (f : RegFile) (r : Reg) (v w : Word) :
    writeReg (writeReg f r v) r w = writeReg f r w := by
  cases r <;> rfl

/-- Two register files that read alike are equal. -/
theorem RegFile.ext_readReg (f g : RegFile) (h : ∀ r, readReg f r = readReg g r) : f = g := by
  cases f
  cases g
  have h1 := h .rax
  have h2 := h .rcx
  have h3 := h .rdx
  have h4 := h .rbx
  have h5 := h .rsp
  have h6 := h .rbp
  have h7 := h .rsi
  have h8 := h .rdi
  have h9 := h .r8
  have h10 := h .r9
  have h11 := h .r10
  have h12 := h .r11
  have h13 := h .r12
  have h14 := h .r13
  have h15 := h .r14
  have h16 := h .r15
  simp only [readReg] at h1 h2 h3 h4 h5 h6 h7 h8 h9 h10 h11 h12 h13 h14 h15 h16
  subst h1 h2 h3 h4 h5 h6 h7 h8 h9 h10 h11 h12 h13 h14 h15 h16
  rfl

end Sys2Proof.Machine
end

