-- ==== Sys2Proof/Laws/Exec.lean ====
section
/-! SUPPORT. What each shared operation of the target can do, said once. -/

namespace Sys2Proof.Machine

/-- A store raises the access's fault, or writes the word and moves on. -/
theorem storeAt_cases {ea : Word} {base src : Reg} {n : Nat} {s t : State} (h : storeAt ea base src n s = .next t) :
    (∃ e, accessFault s .write (baseSegment base) ea = some e ∧ t = s.raiseFault e) ∨
    (accessFault s .write (baseSegment base) ea = none ∧
      t = (s.setMem (writeWord s.mem ea (readReg s.regs src))).advance n) := by
  unfold storeAt at h
  split at h
  · exact .inl ⟨_, by assumption, by injection h with h; exact h.symm⟩
  · exact .inr ⟨by assumption, by injection h with h; exact h.symm⟩

/-- A load raises the access's fault, or writes the register and moves on. -/
theorem loadAt_cases {ea : Word} {base dst : Reg} {n : Nat} {s t : State} (h : loadAt ea base dst n s = .next t) :
    (∃ e, accessFault s .read (baseSegment base) ea = some e ∧ t = s.raiseFault e) ∨
    (accessFault s .read (baseSegment base) ea = none ∧ t = (s.setReg dst (readWord s.mem ea)).advance n) := by
  unfold loadAt at h
  split at h
  · exact .inl ⟨_, by assumption, by injection h with h; exact h.symm⟩
  · exact .inr ⟨by assumption, by injection h with h; exact h.symm⟩

/-- A return raises the stack read's fault, or #GP(0) for its target, or pops and jumps. -/
theorem execRet_cases {s t : State} (h : execRet s = .next t) :
    (∃ e, accessFault s .read .ss (readReg s.regs .rsp) = some e ∧ t = s.raiseFault e) ∨
    (accessFault s .read .ss (readReg s.regs .rsp) = none ∧
      canonical s.linear (readWord s.mem (readReg s.regs .rsp)).toNat = false ∧ t = s.raiseFault .generalProtection) ∨
    (accessFault s .read .ss (readReg s.regs .rsp) = none ∧
      canonical s.linear (readWord s.mem (readReg s.regs .rsp)).toNat = true ∧
      t = (s.setReg .rsp (readReg s.regs .rsp + 8)).jump (readWord s.mem (readReg s.regs .rsp))) := by
  unfold execRet at h
  simp only at h
  split at h
  · exact .inl ⟨_, by assumption, by injection h with h; exact h.symm⟩
  · split at h
    · exact .inr (.inr ⟨by assumption, by assumption, by injection h with h; exact h.symm⟩)
    · exact .inr (.inl ⟨by assumption, Bool.eq_false_iff.2 (by assumption), by injection h with h; exact h.symm⟩)

/-- A store always answers a next state. -/
theorem storeAt_next (ea : Word) (base src : Reg) (n : Nat) (s : State) : ∃ t, storeAt ea base src n s = .next t := by
  unfold storeAt
  split <;> exact ⟨_, rfl⟩

/-- A load always answers a next state. -/
theorem loadAt_next (ea : Word) (base dst : Reg) (n : Nat) (s : State) : ∃ t, loadAt ea base dst n s = .next t := by
  unfold loadAt
  split <;> exact ⟨_, rfl⟩

/-- A return always answers a next state. -/
theorem execRet_next (s : State) : ∃ t, execRet s = .next t := by
  unfold execRet
  simp only
  split
  · exact ⟨_, rfl⟩
  · split <;> exact ⟨_, rfl⟩

/-- The meaning of a compound, whichever of the twelve forms it has. -/
theorem exec_setInstr (c : Cond) (g : Group) (r : Reg) (s : State) : exec (setInstr c g r) s = setCompound c g r s := by
  cases c <;> cases g <;> rfl

@[simp] theorem runSetPart_regs (p : SetPart) (s : State) :
    (runSetPart p s).regs = writeByteReg s.regs p.group p.number (condByte (condHolds p.cond s.flags)) := rfl
@[simp] theorem runSetPart_flags (p : SetPart) (s : State) : (runSetPart p s).flags = s.flags := rfl
@[simp] theorem runSetPart_mem (p : SetPart) (s : State) : (runSetPart p s).mem = s.mem := rfl
@[simp] theorem runSetPart_rip (p : SetPart) (s : State) :
    (runSetPart p s).rip = s.rip + BitVec.ofNat 64 (setPartLength p.group) := rfl
@[simp] theorem runSetPart_request (p : SetPart) (s : State) : (runSetPart p s).request = s.request := rfl
@[simp] theorem runSetPart_response (p : SetPart) (s : State) : (runSetPart p s).response = s.response := rfl
@[simp] theorem runSetPart_cr2 (p : SetPart) (s : State) : (runSetPart p s).cr2 = s.cr2 := rfl
@[simp] theorem runSetPart_exception (p : SetPart) (s : State) : (runSetPart p s).exception = s.exception := rfl
@[simp] theorem runSetPart_pageFaults (p : SetPart) (s : State) : (runSetPart p s).pageFaults = s.pageFaults := rfl
@[simp] theorem runSetPart_linear (p : SetPart) (s : State) : (runSetPart p s).linear = s.linear := rfl
@[simp] theorem runSetPart_alignmentCheck (p : SetPart) (s : State) :
    (runSetPart p s).alignmentCheck = s.alignmentCheck := rfl
@[simp] theorem runSetPart_cpl (p : SetPart) (s : State) : (runSetPart p s).cpl = s.cpl := rfl

/-- A low byte written is the register's low byte. -/
@[simp] theorem setLowByte_low (w : Word) (b : Byte) : (setLowByte w b).extractLsb' 0 8 = b := by
  ext i hi
  simp only [setLowByte, BitVec.getElem_extractLsb', BitVec.getLsbD_append, BitVec.getLsbD_extractLsb']
  interval_cases i <;> simp

/-- A low byte written leaves the other 56 bits. -/
@[simp] theorem setLowByte_rest (w : Word) (b : Byte) : (setLowByte w b).extractLsb' 8 56 = w.extractLsb' 8 56 := by
  ext i hi
  simp only [setLowByte, BitVec.getElem_extractLsb', BitVec.getLsbD_append, BitVec.getLsbD_extractLsb']
  interval_cases i <;> simp

/-- A high byte written is bits 15:8. -/
@[simp] theorem setHighByte_high (w : Word) (b : Byte) : (setHighByte w b).extractLsb' 8 8 = b := by
  ext i hi
  simp only [setHighByte, BitVec.getElem_extractLsb', BitVec.getLsbD_append, BitVec.getLsbD_extractLsb']
  interval_cases i <;> simp

/-- A high byte written leaves bits 7:0. -/
@[simp] theorem setHighByte_low (w : Word) (b : Byte) : (setHighByte w b).extractLsb' 0 8 = w.extractLsb' 0 8 := by
  ext i hi
  simp only [setHighByte, BitVec.getElem_extractLsb', BitVec.getLsbD_append, BitVec.getLsbD_extractLsb']
  interval_cases i <;> simp

/-- A high byte written leaves bits 63:16. -/
@[simp] theorem setHighByte_rest (w : Word) (b : Byte) : (setHighByte w b).extractLsb' 16 48 = w.extractLsb' 16 48 := by
  ext i hi
  simp only [setHighByte, BitVec.getElem_extractLsb', BitVec.getLsbD_append, BitVec.getLsbD_extractLsb']
  interval_cases i <;> simp

/-- A low byte written leaves every bit from 8 on. -/
theorem setLowByte_other (w : Word) (b : Byte) (k : Nat) (h : 8 ≤ k) : (setLowByte w b).getLsbD k = w.getLsbD k := by
  have h8 : ¬k < 8 := by omega
  simp only [setLowByte, BitVec.getLsbD_append, BitVec.getLsbD_extractLsb', h8, if_false]
  by_cases h64 : k < 64
  · rw [show 8 + (k - 8) = k by omega]
    simp
    omega
  · rw [BitVec.getLsbD_of_ge w k (by omega)]
    simp
    omega

/-- A high byte written leaves every bit below 8 and from 16 on. -/
theorem setHighByte_other (w : Word) (b : Byte) (k : Nat) (h : k < 8 ∨ 16 ≤ k) :
    (setHighByte w b).getLsbD k = w.getLsbD k := by
  simp only [setHighByte, BitVec.getLsbD_append, BitVec.getLsbD_extractLsb']
  by_cases h8 : k < 8
  · simp [h8]
  · have h16 : ¬k - 8 < 8 := by omega
    by_cases h64 : k < 64
    · simp [h8, h16]
      rw [show 16 + (k - 8 - 8) = k by omega]
      simp
      omega
    · rw [BitVec.getLsbD_of_ge w k (by omega)]
      simp [h8, h16]
      omega

/-- The register of a group and number is the one the table gives. -/
@[simp] theorem regOf_regField (r : Reg) : regOf (regGroup r) (regField r) = r := by cases r <;> rfl

/-- A byte write with the REX byte goes to the low byte of r8..r15. -/
theorem writeByteReg_g1 (f : RegFile) (n : BitVec 3) (b : Byte) :
    writeByteReg f .g1 n b = writeReg f (regOf .g1 n) (setLowByte (readReg f (regOf .g1 n)) b) := by
  simp [writeByteReg]

/-- A byte write without REX to a number below 4 goes to the low byte of rax, rcx, rdx, rbx. -/
theorem writeByteReg_low (f : RegFile) (n : BitVec 3) (b : Byte) (h : n.toNat < 4) :
    writeByteReg f .g0 n b = writeReg f (regOf .g0 n) (setLowByte (readReg f (regOf .g0 n)) b) := by
  simp [writeByteReg, Nat.not_le.2 h]

/-- A byte write without REX to a number from 4 on goes to the high byte of rax, rcx, rdx, rbx. -/
theorem writeByteReg_high (f : RegFile) (n : BitVec 3) (b : Byte) (h : 4 ≤ n.toNat) :
    writeByteReg f .g0 n b = writeReg f (highByteReg n) (setHighByte (readReg f (highByteReg n)) b) := by
  simp [writeByteReg, h, Config.setccHighByteQuirk]

/-- A page fault names a byte of the access that a region of its kind covers, and that region's code. -/
theorem findPageFault_cases {gs : List FaultRegion} {kind : AccessKind} {ea : Word} {n j : Nat} {e : TargetException}
    (h : findPageFault gs kind ea j n = some e) :
    ∃ i g, j ≤ i ∧ i < j + n ∧ g ∈ gs ∧ regionHits kind (byteAddr ea i) g = true ∧
      e = .pageFault (BitVec.ofNat 64 (byteAddr ea i)) g.code := by
  induction n generalizing j with
  | zero => simp [findPageFault] at h
  | succ n ih =>
    unfold findPageFault at h
    split at h
    · rename_i g hg
      injection h with h
      exact ⟨j, g, by omega, by omega, List.mem_of_find?_eq_some hg, by simpa using List.find?_some hg, h.symm⟩
    · obtain ⟨i, g, h1, h2, h3⟩ := ih h
      exact ⟨i, g, by omega, by omega, h3⟩

/-- There is no page fault where no region of the kind covers a byte of the access. -/
theorem findPageFault_none {gs : List FaultRegion} {kind : AccessKind} {ea : Word} {n j : Nat} :
    findPageFault gs kind ea j n = none ↔
      ∀ g ∈ gs, ∀ i, j ≤ i → i < j + n → regionHits kind (byteAddr ea i) g = false := by
  induction n generalizing j with
  | zero =>
    simp only [findPageFault, true_iff]
    omega
  | succ n ih =>
    unfold findPageFault
    split
    · rename_i g hg
      have h1 := List.find?_some hg
      simp only [reduceCtorEq, false_iff]
      intro h
      exact absurd h1 (by simp [h g (List.mem_of_find?_eq_some hg) j (by omega) (by omega)])
    · rename_i hg
      rw [ih]
      rw [List.find?_eq_none] at hg
      constructor
      · intro h g hgm i hi1 hi2
        by_cases hij : i = j
        · subst hij
          simpa using hg g hgm
        · exact h g hgm i (by omega) (by omega)
      · intro h g hgm i hi1 hi2
        exact h g hgm i (by omega) (by omega)

/-- An access is canonical where every one of its eight bytes is. -/
theorem canonicalWord_iff (w : LinearWidth) (ea : Word) :
    canonicalWord w ea = true ↔ ∀ k < 8, canonical w (byteAddr ea k) = true := by
  simp [canonicalWord]

/-- What a step can do: answer the request; or, with no request and no waiting fault, run the decoded instruction or a
lone SETcc part. -/
theorem step_cases {s t : State} (h : step s = .next t) :
    (∃ rq, s.request = some rq ∧ t = s.respond (Block.answer rq)) ∨
    (s.request = none ∧ s.exception = none ∧
      ((∃ i, decode (fetchBytes s) = Except.ok i ∧ exec i s = .next t) ∨
        ∃ p e, decode (fetchBytes s) = Except.error e ∧ decodeSetPart (fetchBytes s) = some p ∧ t = runSetPart p s)) := by
  unfold step at h
  split at h
  · rename_i rq hq
    simp only [serve, Block.withinBound, Config.maxLen, if_true] at h
    injection h with h
    exact .inl ⟨rq, hq, h.symm⟩
  · rename_i hq
    split at h
    · cases h
    · rename_i he
      refine .inr ⟨hq, he, ?_⟩
      unfold runTarget at h
      split at h
      · exact .inl ⟨_, by assumption, h⟩
      · split at h
        · injection h with h
          exact .inr ⟨_, _, by assumption, by assumption, h.symm⟩
        · cases h

end Sys2Proof.Machine
end

