-- ==== Sys2Proof/Laws/Memory.lean ====
section
/-! SUPPORT. The laws of memory: every write keeps the canonical form, a byte reads back, every other byte stays, a word
reads back, and memories that read alike are equal. -/

namespace Sys2Proof.Machine

/-- The canonical form at a nonempty memory: its head, and the rest in order. -/
theorem Memory.wf_cons (a : Nat) (b : Byte) (m : Memory) :
    Memory.wf ((a, b) :: m) = true ↔
      a < 2 ^ 64 ∧ b ≠ unlistedByte ∧ (∀ c ∈ m.head?, a < c.1) ∧ Memory.wf m = true := by
  induction m generalizing a b with
  | nil => simp [Memory.wf]
  | cons c m ih =>
    obtain ⟨a', b'⟩ := c
    have := ih a' b'
    simp only [Memory.wf, Bool.and_eq_true, decide_eq_true_eq, bne_iff_ne, List.head?_cons, Option.mem_some_iff,
      forall_eq']
    constructor
    · rintro ⟨⟨h1, h2⟩, h3⟩
      exact ⟨by have := (this.1 h3).1; omega, h2, h1, h3⟩
    · rintro ⟨-, h2, h1, h3⟩
      exact ⟨⟨h1, h2⟩, h3⟩

/-- The tail of a canonical memory is canonical. -/
theorem Memory.wf_tail {a : Nat} {b : Byte} {m : Memory} (h : Memory.wf ((a, b) :: m) = true) : Memory.wf m = true :=
  ((Memory.wf_cons a b m).1 h).2.2.2

/-- In a canonical memory every listed address lies above the head's. -/
theorem Memory.wf_above {a : Nat} {b : Byte} {m : Memory} (h : Memory.wf ((a, b) :: m) = true) :
    ∀ c ∈ m, a < c.1 := by
  induction m generalizing a b with
  | nil => simp
  | cons c m ih =>
    obtain ⟨a', b'⟩ := c
    have h' := (Memory.wf_cons a b _).1 h
    have hlt : a < a' := h'.2.2.1 (a', b') (by simp)
    intro c hc
    rcases List.mem_cons.1 hc with rfl | hc
    · exact hlt
    · exact Nat.lt_trans hlt (ih h'.2.2.2 c hc)

/-- A byte below every listed address reads as unlisted. -/
theorem readByte_below {m : Memory} {a : Nat} (h : ∀ c ∈ m, a < c.1) : readByte m a = unlistedByte := by
  induction m with
  | nil => rfl
  | cons c m ih =>
    obtain ⟨a', b'⟩ := c
    have hlt : a < a' := h (a', b') (by simp)
    simp only [readByte, Nat.ne_of_lt hlt, if_false]
    exact ih fun c hc => h c (by simp [hc])

/-- The addresses listed after a write are the old ones and the written one. -/
theorem head_writeByte {m : Memory} {x a : Nat} {b : Byte} (hx : x < a) (hm : ∀ c ∈ m.head?, x < c.1)
    (hw : Memory.wf m = true) : ∀ c ∈ (writeByte m a b).head?, x < c.1 := by
  cases m with
  | nil =>
    unfold writeByte
    split <;> simp_all
  | cons c m =>
    obtain ⟨a', b'⟩ := c
    have hx' : x < a' := hm (a', b') (by simp)
    unfold writeByte
    have above := Memory.wf_above hw
    split
    · split <;> simp_all
    · split
      · split
        · cases m with
          | nil => simp
          | cons d m =>
            intro c hc
            simp only [List.head?_cons, Option.mem_some_iff] at hc
            subst hc
            exact Nat.lt_trans hx' (above d (by simp))
        · simp_all
      · simp_all

/-- Writing a byte keeps the canonical form. -/
theorem writeByte_wf {m : Memory} (hm : Memory.wf m = true) {a : Nat} (ha : a < 2 ^ 64) (b : Byte) :
    Memory.wf (writeByte m a b) = true := by
  induction m with
  | nil =>
    unfold writeByte
    split
    · rfl
    · exact (Memory.wf_cons a b []).2 ⟨ha, by assumption, by simp, rfl⟩
  | cons c m ih =>
    obtain ⟨a', b'⟩ := c
    have h' := (Memory.wf_cons a' b' m).1 hm
    unfold writeByte
    split
    · split
      · exact hm
      · exact (Memory.wf_cons a b _).2 ⟨ha, by assumption, by simp_all, hm⟩
    · split
      · split
        · exact h'.2.2.2
        · rename_i heq hne
          subst heq
          exact (Memory.wf_cons a b m).2 ⟨ha, hne, h'.2.2.1, h'.2.2.2⟩
      · exact (Memory.wf_cons a' b' _).2
          ⟨h'.1, h'.2.1, head_writeByte (by omega) h'.2.2.1 h'.2.2.2, ih h'.2.2.2⟩

/-- Reading a byte after a write: the written byte at its address, the old byte elsewhere. -/
theorem readByte_writeByte {m : Memory} (hm : Memory.wf m = true) (a : Nat) (b : Byte) (a' : Nat) :
    readByte (writeByte m a b) a' = if a' = a then b else readByte m a' := by
  induction m with
  | nil =>
    unfold writeByte
    split <;> simp_all [readByte]
  | cons c m ih =>
    obtain ⟨x, y⟩ := c
    have above := Memory.wf_above hm
    have below : a ≤ x → readByte m a = unlistedByte := fun h =>
      readByte_below fun c hc => Nat.lt_of_le_of_lt h (above c hc)
    unfold writeByte
    split
    · rename_i hlt
      split
      · by_cases h : a' = a
        · subst h
          simp_all [readByte, Nat.ne_of_lt hlt, below (Nat.le_of_lt hlt)]
        · simp [h]
      · simp [readByte]
    · split
      · rename_i heq
        subst heq
        split
        · by_cases h : a' = a
          · subst h; simp_all
          · simp [h, readByte]
        · by_cases h : a' = a <;> simp [h, readByte]
      · rename_i hne
        simp only [readByte, ih (Memory.wf_tail hm)]
        by_cases h : a' = x
        · subst h
          simp [Ne.symm hne]
        · simp [h]

/-- Address arithmetic stays below 2^64. -/
theorem byteAddr_lt (ea : Word) (k : Nat) : byteAddr ea k < 2 ^ 64 := (ea + BitVec.ofNat 64 k).isLt

/-- Distinct bytes of one access have distinct addresses. -/
theorem byteAddr_inj {ea : Word} {j k : Nat} (hj : j < 2 ^ 64) (hk : k < 2 ^ 64)
    (h : byteAddr ea j = byteAddr ea k) : j = k := by
  have h1 : ea + BitVec.ofNat 64 j = ea + BitVec.ofNat 64 k := BitVec.eq_of_toNat_eq h
  have h2 := congrArg BitVec.toNat (add_left_cancel h1)
  simp only [BitVec.toNat_ofNat] at h2
  rwa [Nat.mod_eq_of_lt hj, Nat.mod_eq_of_lt hk] at h2

/-- Writing bytes keeps the canonical form. -/
theorem writeBytes_wf (ea : Word) (bs : List Byte) {m : Memory} (hm : Memory.wf m = true) (k : Nat) :
    Memory.wf (writeBytes ea m k bs) = true := by
  induction bs generalizing m k with
  | nil => exact hm
  | cons b bs ih => exact ih (writeByte_wf hm (byteAddr_lt ea k) b) (k + 1)

/-- Writing bytes leaves every byte outside them alone. -/
theorem readByte_writeBytes_other (ea : Word) (bs : List Byte) {m : Memory} (hm : Memory.wf m = true) (k a : Nat)
    (h : ∀ j, k ≤ j → j < k + bs.length → a ≠ byteAddr ea j) : readByte (writeBytes ea m k bs) a = readByte m a := by
  induction bs generalizing m k with
  | nil => rfl
  | cons b bs ih =>
    have h0 : a ≠ byteAddr ea k := h k (Nat.le_refl k) (by simp)
    rw [writeBytes, ih (writeByte_wf hm (byteAddr_lt ea k) b) (k + 1), readByte_writeByte hm, if_neg h0]
    intro j h1 h2
    exact h j (by omega) (by simp only [List.length_cons]; omega)

/-- Each written byte reads back at its address. -/
theorem readByte_writeBytes_same (ea : Word) (bs : List Byte) {m : Memory} (hm : Memory.wf m = true) (k j : Nat)
    (hk : k + bs.length ≤ 2 ^ 64) (hj : j < bs.length) :
    readByte (writeBytes ea m k bs) (byteAddr ea (k + j)) = bs[j] := by
  induction bs generalizing m k j with
  | nil => simp at hj
  | cons b bs ih =>
    simp only [List.length_cons] at hk hj
    rw [writeBytes]
    cases j with
    | zero =>
      rw [readByte_writeBytes_other ea bs (writeByte_wf hm (byteAddr_lt ea k) b), readByte_writeByte hm]
      · simp
      · intro i h1 h2 h3
        have := byteAddr_inj (by omega) (by omega) h3
        omega
    | succ j =>
      have := ih (writeByte_wf hm (byteAddr_lt ea k) b) (k + 1) j (by omega) (by omega)
      rw [Nat.add_assoc, Nat.add_comm 1 j] at this
      simpa using this

/-- Bytes read back as they were written. -/
theorem readBytes_writeBytes (ea : Word) (bs : List Byte) {m : Memory} (hm : Memory.wf m = true) (k : Nat)
    (hk : k + bs.length ≤ 2 ^ 64) : readBytes (writeBytes ea m k bs) ea k bs.length = bs := by
  induction bs generalizing m k with
  | nil => rfl
  | cons b bs ih =>
    simp only [List.length_cons] at hk
    have h0 := readByte_writeBytes_same ea (b :: bs) hm k 0 (by simp only [List.length_cons]; omega) (by simp)
    simp only [Nat.add_zero, List.getElem_cons_zero] at h0
    rw [List.length_cons, readBytes, h0, writeBytes, ih (writeByte_wf hm (byteAddr_lt ea k) b) (k + 1) (by omega)]

/-- A word write keeps the canonical form. -/
theorem writeWord_wf (ea v : Word) {m : Memory} (hm : Memory.wf m = true) : Memory.wf (writeWord m ea v) = true :=
  writeBytes_wf ea _ hm 0

/-- A word write leaves every byte outside its eight alone. -/
theorem readByte_writeWord_other (ea v : Word) {m : Memory} (hm : Memory.wf m = true) (a : Nat)
    (h : ∀ k < 8, a ≠ byteAddr ea k) : readByte (writeWord m ea v) a = readByte m a :=
  readByte_writeBytes_other ea _ hm 0 a fun j _ h2 => h j (by simpa [wordBytes] using h2)

/-- Each of the eight bytes of a word write reads back. -/
theorem readByte_writeWord_same (ea v : Word) {m : Memory} (hm : Memory.wf m = true) (k : Nat) (hk : k < 8) :
    readByte (writeWord m ea v) (byteAddr ea k) = byteOf v k := by
  have h := readByte_writeBytes_same ea (wordBytes v) hm 0 k (by simp [wordBytes]) (by simpa [wordBytes] using hk)
  rw [Nat.zero_add] at h
  rw [writeWord, h]
  interval_cases k <;> rfl

/-- The bytes of a word, put together, are the word. -/
theorem word_of_bytes (v : Word) :
    byteOf v 7 ++ byteOf v 6 ++ byteOf v 5 ++ byteOf v 4 ++ byteOf v 3 ++ byteOf v 2 ++ byteOf v 1 ++ byteOf v 0 = v := by
  ext i hi
  simp only [byteOf, BitVec.getElem_append, BitVec.getElem_extractLsb']
  have : i < 64 := hi
  interval_cases i <;> simp

/-- A word reads back what was written. -/
theorem readWord_writeWord (ea v : Word) {m : Memory} (hm : Memory.wf m = true) : readWord (writeWord m ea v) ea = v := by
  have h := readByte_writeWord_same ea v hm
  rw [readWord, h 7 (by omega), h 6 (by omega), h 5 (by omega), h 4 (by omega), h 3 (by omega), h 2 (by omega),
    h 1 (by omega), h 0 (by omega)]
  exact word_of_bytes v

/-- Byte `k` of a word read is the byte in memory. -/
theorem byteOf_readWord (m : Memory) (ea : Word) (k : Nat) (hk : k < 8) :
    byteOf (readWord m ea) k = readByte m (byteAddr ea k) := by
  unfold byteOf readWord
  ext i hi
  simp only [BitVec.getElem_extractLsb', BitVec.getLsbD_append]
  interval_cases k <;> interval_cases i <;> simp

/-- Canonical memories that read alike are the same list. -/
theorem Memory.ext_readByte {m m' : Memory} (hm : Memory.wf m = true) (hm' : Memory.wf m' = true)
    (h : ∀ a, readByte m a = readByte m' a) : m = m' := by
  induction m generalizing m' with
  | nil =>
    cases m' with
    | nil => rfl
    | cons c m' =>
      obtain ⟨a, b⟩ := c
      have := h a
      simp only [readByte, if_true] at this
      exact absurd this.symm ((Memory.wf_cons a b m').1 hm').2.1
  | cons c m ih =>
    obtain ⟨a, b⟩ := c
    have w := (Memory.wf_cons a b m).1 hm
    have up := Memory.wf_above hm
    cases m' with
    | nil =>
      have := h a
      simp only [readByte, if_true] at this
      exact absurd this w.2.1
    | cons c' m' =>
      obtain ⟨a', b'⟩ := c'
      have w' := (Memory.wf_cons a' b' m').1 hm'
      have up' := Memory.wf_above hm'
      have ha : a = a' := by
        rcases Nat.lt_trichotomy a a' with hlt | heq | hgt
        · have := h a
          rw [readByte_below (m := (a', b') :: m') fun c hc => by
            rcases List.mem_cons.1 hc with rfl | hc
            · exact hlt
            · exact Nat.lt_trans hlt (up' c hc)] at this
          simp only [readByte, if_true] at this
          exact absurd this w.2.1
        · exact heq
        · have := h a'
          rw [readByte_below (m := (a, b) :: m) fun c hc => by
            rcases List.mem_cons.1 hc with rfl | hc
            · exact hgt
            · exact Nat.lt_trans hgt (up c hc)] at this
          simp only [readByte, if_true] at this
          exact absurd this.symm w'.2.1
      subst ha
      have hb : b = b' := by simpa [readByte] using h a
      subst hb
      rw [ih w.2.2.2 w'.2.2.2]
      intro x
      by_cases hx : x = a
      · subst hx
        rw [readByte_below fun c hc => up c hc, readByte_below fun c hc => up' c hc]
      · simpa [readByte, hx] using h x

end Sys2Proof.Machine
end

