-- ==== Sys2Proof/Laws/PerInstr.lean ====
section
/-! SUPPORT. A family of laws about every instruction: its encoding has the length of its form (30 R56). -/

namespace Sys2Proof.Laws.EncodingLength

/-- The encoding has the form's length. -/
def Statement (i : Instr) : Prop := (encode i).length = formLength i

theorem movImm32 (dst : Reg) (imm : BitVec 32) : Statement (.movImm32 dst imm) := rfl
theorem movImm64 (dst : Reg) (imm : BitVec 64) : Statement (.movImm64 dst imm) := rfl
theorem store (addr src : Reg) : Statement (.store addr src) := rfl
theorem storeSib (addr src : Reg) : Statement (.storeSib addr src) := rfl
theorem storeDisp8 (addr src : Reg) : Statement (.storeDisp8 addr src) := rfl
theorem load (dst addr : Reg) : Statement (.load dst addr) := rfl
theorem loadSib (dst addr : Reg) : Statement (.loadSib dst addr) := rfl
theorem loadDisp8 (dst addr : Reg) : Statement (.loadDisp8 dst addr) := rfl
theorem add (dst src : Reg) : Statement (.add dst src) := rfl
theorem sub (dst src : Reg) : Statement (.sub dst src) := rfl
theorem cmp (dst src : Reg) : Statement (.cmp dst src) := rfl
theorem seteG0 (r : Reg) : Statement (.seteG0 r) := rfl
theorem seteG1 (r : Reg) : Statement (.seteG1 r) := rfl
theorem setneG0 (r : Reg) : Statement (.setneG0 r) := rfl
theorem setneG1 (r : Reg) : Statement (.setneG1 r) := rfl
theorem setgG0 (r : Reg) : Statement (.setgG0 r) := rfl
theorem setgG1 (r : Reg) : Statement (.setgG1 r) := rfl
theorem setlG0 (r : Reg) : Statement (.setlG0 r) := rfl
theorem setlG1 (r : Reg) : Statement (.setlG1 r) := rfl
theorem setgeG0 (r : Reg) : Statement (.setgeG0 r) := rfl
theorem setgeG1 (r : Reg) : Statement (.setgeG1 r) := rfl
theorem setleG0 (r : Reg) : Statement (.setleG0 r) := rfl
theorem setleG1 (r : Reg) : Statement (.setleG1 r) := rfl
theorem ret : Statement .ret := rfl

end Sys2Proof.Laws.EncodingLength
end

