-- ==== Sys2Proof/Tests/Slice0.lean ====
section
/-! SUPPORT. The model's own tests: ill-formed terms that WellFormed refuses, words written out from the spec's format diagrams,
the worked examples of 95, one step of each instruction, and for every statement with hypotheses a concrete case that meets
them all. -/

namespace Sys2Proof.Tests

open Machine Safety Bits

/-- The reset state with bytes placed at `rip`. -/
def placed (bs : List Byte) : State := { State.reset with mem := writeBytes State.reset.rip [] 0 bs }

/-- The reset state with registers set. -/
def withRegs (l : List (Reg × Word)) : State := l.foldl (fun s p => s.setReg p.1 p.2) State.reset

/-- The outcome is a next state with this property. -/
def after (o : Host.Outcome State Fault Refusal) (p : State → Bool) : Bool :=
  match o with
  | .next t => p t
  | .fault _ => false
  | .refused _ => false

/-- Eight bytes at an address, read as a word. -/
def wordAt (s : State) (a : Word) : Word := readWord s.mem a

/-- A state with eight bytes placed at an address. -/
def withWord (s : State) (a v : Word) : State := s.setMem (writeWord s.mem a v)

/-! ## WellFormed refuses -/

theorem test_wf_plain_base : (Instr.store .rsp .rax).wellFormed = false ∧ (Instr.store .r13 .rax).wellFormed = false ∧
    (Instr.load .rax .r12).wellFormed = false ∧ (Instr.load .rax .rbp).wellFormed = false := by decide
theorem test_wf_sib_base : (Instr.storeSib .rbp .rax).wellFormed = false ∧ (Instr.loadSib .rax .r11).wellFormed = false := by
  decide
theorem test_wf_disp8_base : (Instr.storeDisp8 .r12 .rax).wellFormed = false ∧
    (Instr.loadDisp8 .rax .rsi).wellFormed = false := by decide
theorem test_wf_group_0 : [Instr.seteG0 .r8, .setneG0 .r9, .setgG0 .r10, .setlG0 .r11, .setgeG0 .r12, .setleG0 .r15].all
    (fun i => !i.wellFormed) = true := by decide
theorem test_wf_group_1 : [Instr.seteG1 .rax, .setneG1 .rcx, .setgG1 .rdx, .setlG1 .rbx, .setgeG1 .rsp, .setleG1 .rdi].all
    (fun i => !i.wellFormed) = true := by decide
/-- 41 R123: a pattern below 2^31 never comes out of the full form, and from 2^31 on it does. -/
theorem test_wf_emitted : (Instr.movImm64 .rax 0x7FFFFFFF#64).emitted = false ∧
    (Instr.movImm64 .rax 0x80000000#64).emitted = true := by decide

/-! ## Words written out from the format diagrams (30 R65 to R72) -/

theorem test_decode_movImm32 : decode [0b01001000#8, 0b11000111#8, 0b11000101#8, 4#8, 3#8, 2#8, 1#8] =
    .ok (.movImm32 .rbp 0x01020304#32) := by decide
theorem test_decode_movImm64 : decode [0b01001001#8, 0b10111001#8, 8#8, 7#8, 6#8, 5#8, 4#8, 3#8, 2#8, 1#8] =
    .ok (.movImm64 .r9 0x0102030405060708#64) := by decide
theorem test_decode_store : decode [0b01001001#8, 0b10001001#8, 0b00010011#8] = .ok (.store .r11 .rdx) := by decide
theorem test_decode_storeSib : decode [0b01001100#8, 0b10001001#8, 0b00010100#8, 0b00100100#8] =
    .ok (.storeSib .rsp .r10) := by decide
theorem test_decode_storeDisp8 : decode [0b01001001#8, 0b10001001#8, 0b01110101#8, 0b00000000#8] =
    .ok (.storeDisp8 .r13 .rsi) := by decide
theorem test_decode_load : decode [0b01001100#8, 0b10001011#8, 0b00110001#8] = .ok (.load .r14 .rcx) := by decide
theorem test_decode_loadSib : decode [0b01001001#8, 0b10001011#8, 0b00011100#8, 0b00100100#8] =
    .ok (.loadSib .rbx .r12) := by decide
theorem test_decode_loadDisp8 : decode [0b01001100#8, 0b10001011#8, 0b01000101#8, 0b00000000#8] =
    .ok (.loadDisp8 .r8 .rbp) := by decide
theorem test_decode_alu : decode [0b01001100#8, 0b00000001#8, 0b11111001#8] = .ok (.add .rcx .r15) ∧
    decode [0b01001001#8, 0b00101001#8, 0b11111000#8] = .ok (.sub .r8 .rdi) ∧
    decode [0b01001101#8, 0b00111001#8, 0b11110101#8] = .ok (.cmp .r13 .r14) := by decide
theorem test_decode_set_group_0 :
    decode [0b01001000#8, 0b11000111#8, 0b11000001#8, 0#8, 0#8, 0#8, 0#8, 0x0F#8, 0b10010100#8, 0b11000001#8] = .ok (.seteG0 .rcx) ∧
    decode [0b01001000#8, 0b11000111#8, 0b11000010#8, 0#8, 0#8, 0#8, 0#8, 0x0F#8, 0b10010101#8, 0b11000010#8] = .ok (.setneG0 .rdx) ∧
    decode [0b01001000#8, 0b11000111#8, 0b11000011#8, 0#8, 0#8, 0#8, 0#8, 0x0F#8, 0b10011111#8, 0b11000011#8] = .ok (.setgG0 .rbx) ∧
    decode [0b01001000#8, 0b11000111#8, 0b11000100#8, 0#8, 0#8, 0#8, 0#8, 0x0F#8, 0b10011100#8, 0b11000100#8] = .ok (.setlG0 .rsp) ∧
    decode [0b01001000#8, 0b11000111#8, 0b11000101#8, 0#8, 0#8, 0#8, 0#8, 0x0F#8, 0b10011101#8, 0b11000101#8] = .ok (.setgeG0 .rbp) ∧
    decode [0b01001000#8, 0b11000111#8, 0b11000110#8, 0#8, 0#8, 0#8, 0#8, 0x0F#8, 0b10011110#8, 0b11000110#8] = .ok (.setleG0 .rsi) := by
  decide
theorem test_decode_set_group_1 :
    decode [0b01001001#8, 0b11000111#8, 0b11000001#8, 0#8, 0#8, 0#8, 0#8, 0x41#8, 0x0F#8, 0b10010100#8, 0b11000001#8] = .ok (.seteG1 .r9) ∧
    decode [0b01001001#8, 0b11000111#8, 0b11000010#8, 0#8, 0#8, 0#8, 0#8, 0x41#8, 0x0F#8, 0b10010101#8, 0b11000010#8] = .ok (.setneG1 .r10) ∧
    decode [0b01001001#8, 0b11000111#8, 0b11000011#8, 0#8, 0#8, 0#8, 0#8, 0x41#8, 0x0F#8, 0b10011111#8, 0b11000011#8] = .ok (.setgG1 .r11) ∧
    decode [0b01001001#8, 0b11000111#8, 0b11000100#8, 0#8, 0#8, 0#8, 0#8, 0x41#8, 0x0F#8, 0b10011100#8, 0b11000100#8] = .ok (.setlG1 .r12) ∧
    decode [0b01001001#8, 0b11000111#8, 0b11000101#8, 0#8, 0#8, 0#8, 0#8, 0x41#8, 0x0F#8, 0b10011101#8, 0b11000101#8] = .ok (.setgeG1 .r13) ∧
    decode [0b01001001#8, 0b11000111#8, 0b11000111#8, 0#8, 0#8, 0#8, 0#8, 0x41#8, 0x0F#8, 0b10011110#8, 0b11000111#8] = .ok (.setleG1 .r15) := by
  decide
theorem test_decode_ret : decode [0b11000011#8] = .ok .ret := by decide

/-- Bytes that no diagram has, each refused by name (30 R58 to R61, R74 to R78). -/
theorem test_decode_refuses :
    decode [] = .error .truncated ∧
    decode [0x49#8, 0xC7#8, 0xC0#8, 1#8] = .error .truncated ∧
    decode [0x89#8, 0x00#8] = .error .firstByte ∧
    decode [0x4A#8, 0x89#8, 0x00#8] = .error .firstByte ∧
    decode [0x48#8, 0x31#8, 0xC0#8] = .error .opcode ∧
    decode [0x4C#8, 0xC7#8, 0xC0#8, 0#8, 0#8, 0#8, 0#8] = .error .rexR ∧
    decode [0x48#8, 0xC7#8, 0xC8#8, 0#8, 0#8, 0#8, 0#8] = .error .modRM ∧
    decode [0x48#8, 0x01#8, 0x00#8] = .error .modRM ∧
    decode [0x48#8, 0x89#8, 0xC0#8] = .error .modRM ∧
    decode [0x48#8, 0x8B#8, 0x05#8, 0#8, 0#8, 0#8, 0#8] = .error .ripRelative ∧
    decode [0x48#8, 0x8B#8, 0x04#8, 0x25#8] = .error .sib ∧
    decode [0x48#8, 0x8B#8, 0x45#8, 0x08#8] = .error .displacement ∧
    decode [0x48#8, 0x8B#8, 0x40#8, 0x00#8] = .error .displacement := by decide

/-- Only the SETcc of the zeroed register completes a compound (30 R70, R71). -/
theorem test_decode_other_set :
    decode [0x48#8, 0xC7#8, 0xC1#8, 0#8, 0#8, 0#8, 0#8, 0x0F#8, 0x94#8, 0xC2#8] = .ok (.movImm32 .rcx 0#32) ∧
    decode [0x48#8, 0xC7#8, 0xC1#8, 0#8, 0#8, 0#8, 0#8, 0x41#8, 0x0F#8, 0x94#8, 0xC1#8] = .ok (.movImm32 .rcx 0#32) := by
  decide

/-- A table word numbers its first byte as the most significant (opcode_table.json, rows mov [a], r64 and ret). -/
theorem test_table_word : decodeTableWord 24 0x488900 = some (.store .rax .rax) ∧
    decodeTableWord 8 0xC3 = some .ret ∧ decodeTableWord 24 0x488904 = none := by decide

/-! ## Worked examples (95 L1, L2) -/

/-- The bytes of an answer. -/
def bytesFrom (r : Except EncError BitVector) : Except EncError (List Byte) :=
  match r with
  | .ok v => bytes v
  | .error e => .error e

/-- 95 L1.1, L1.3, L1.5, L1.7, L1.9, L1.12. -/
theorem test_encode_examples :
    bytesFrom (Block.encode (.movImm .rax 20)) = .ok [0x48, 0xC7, 0xC0, 0x14, 0, 0, 0] ∧
    bytesFrom (Block.encode (.movImm .r12 12345678900000000001)) =
      .ok [0x49, 0xBC, 0x01, 0x08, 0x89, 0xA1, 0x8C, 0xA9, 0x54, 0xAB] ∧
    bytesFrom (Block.encode (.movStore .rsp .rax)) = .ok [0x48, 0x89, 0x04, 0x24] ∧
    bytesFrom (Block.encode (.movLoad .rax .rbp)) = .ok [0x48, 0x8B, 0x45, 0x00] ∧
    bytesFrom (Block.encode (.alu .add .r9 .rbp)) = .ok [0x49, 0x01, 0xE9] ∧
    bytesFrom (Block.encode .ret) = .ok [0xC3] := by decide

/-- 95 L1.2, L1.4, L1.6, L1.8, L1.10, L1.13, and 44 R183. -/
theorem test_render_examples :
    Block.render (.movImm .rax 20) = "mov rax, 20".toList ∧
    Block.render (.movImm .r12 12345678900000000001) = "mov r12, 12345678900000000001".toList ∧
    Block.render (.movImm .rdx (-5)) = "mov rdx, -5".toList ∧
    Block.render (.movStore .rsp .rax) = "mov [rsp], rax".toList ∧
    Block.render (.movLoad .rax .rbp) = "mov rax, [rbp]".toList ∧
    Block.render (.alu .add .r9 .rbp) = "add r9, rbp".toList ∧
    Block.render (.setCC .ge .r8) = "setge r8".toList ∧
    Block.render .ret = "ret".toList := by decide

/-- 95 L1.14, L1.15 and L2.1: the coding of integers, at the ends of the range. -/
theorem test_integer_examples :
    fromIntegerLen (-1) 6 = .ok [true, true, true, true, true, true] ∧
    fromIntegerLen (-42) 8 = .ok [true, true, false, true, false, true, true, false] ∧
    fromIntegerLen 0 0 = .error .outOfRange ∧ fromIntegerLen 7 3 = .ok [true, true, true] ∧
    fromIntegerLen 8 3 = .error .outOfRange ∧ fromIntegerLen (-4) 3 = .ok [true, false, false] ∧
    fromIntegerLen (-5) 3 = .error .outOfRange ∧ fromInteger (-3) = .error .lengthRequired ∧
    fromInteger 0 = .ok [false] := by decide

/-- 95 L2.1: texts. -/
theorem test_text_examples :
    fromHex "0xC7".toList = .ok (byteBits 0xC7) ∧ fromHex "0X1".toList = .error .invalidHex ∧
    fromHexWithOffset "b8".toList 4 = .ok (byteBits 0xBC) ∧
    fromHexWithOffset "0f".toList 0 = .ok [true, true, true, true] ∧
    fromHexWithOffset "00".toList (-1) = .error .outOfRange ∧ fromHexWithOffset [] 3 = .error .invalidHex ∧
    toHex (byteBits 0xD6) = .ok "D6".toList ∧ toHex [true, false, true] = .error .alignmentError ∧
    eqBits (byteBits 0xD6) "1101 0110".toList = true ∧ eqBits (byteBits 0xC7) "1100011x".toList = false ∧
    eqHex [true, false, true] "5".toList = false ∧ slice (byteBits 0xC7) 5 4 = .error .outOfRange := by decide

/-- 95 L1.16 and 41 R123: the ends of the size classes. -/
theorem test_size_examples :
    Policy.immSize 0 = .ok 0 ∧ Policy.immSize 127 = .ok 1 ∧ Policy.immSize 128 = .ok 2 ∧
    Policy.immSize (-32768) = .ok 2 ∧ Policy.immSize (-32769) = .ok 4 ∧ Policy.immSize (2 ^ 31) = .ok 8 ∧
    Policy.immSize (2 ^ 64 - 1) = .ok 8 ∧ Policy.immSize (2 ^ 64) = .error .unsupportedImmediateSize ∧
    Policy.immSize (-2 ^ 63 - 1) = .error .unsupportedImmediateSize := by decide

/-! ## One step of each instruction (49 R192 to R205), by hand -/

/-- A compact immediate is sign-extended (R192). -/
theorem test_movImm32_sign : after (exec (.movImm32 .r8 0x80000000#32) State.reset)
    (fun t => t.regs.r8 == 0xFFFFFFFF80000000#64 && t.rip == 0x500007#64) = true := by decide
theorem test_movImm64 : after (exec (.movImm64 .rdi 0x80000000#64) State.reset)
    (fun t => t.regs.rdi == 0x80000000#64 && t.rip == 0x50000A#64) = true := by decide
/-- Byte 0 of a stored word is the least significant (R194). -/
theorem test_store_little : after (exec (.store .rbx .rcx) (withRegs [(.rbx, 0x1000), (.rcx, 0x1122334455667788)]))
    (fun t => readByte t.mem 0x1000 == 0x88#8 && readByte t.mem 0x1007 == 0x11#8 && t.rip == 0x500003#64) = true := by decide
/-- A register stored at itself stores the address (R194). -/
theorem test_storeSib_self : after (exec (.storeSib .rsp .rsp) State.reset)
    (fun t => wordAt t 0x7fffffffe000#64 == 0x7fffffffe000#64 && t.rip == 0x500004#64) = true := by decide
theorem test_storeDisp8 : after (exec (.storeDisp8 .rbp .rsi) (withRegs [(.rbp, 0x1FF9), (.rsi, 7)]))
    (fun t => wordAt t 0x1FF9#64 == 7#64 && t.rip == 0x500004#64) = true := by decide
/-- The destination may be the address register (R195). -/
theorem test_load_self : after (exec (.load .rdx .rdx) (withWord (withRegs [(.rdx, 0x2000)]) 0x2000#64 0x0102030405060708#64))
    (fun t => t.regs.rdx == 0x0102030405060708#64 && t.rip == 0x500003#64) = true := by decide
theorem test_loadSib : after (exec (.loadSib .rax .rsp) (withWord State.reset 0x7fffffffe000#64 9#64))
    (fun t => t.regs.rax == 9#64 && t.rip == 0x500004#64) = true := by decide
theorem test_loadDisp8 : after (exec (.loadDisp8 .r15 .rbp) (withWord (withRegs [(.rbp, 0x2000)]) 0x2000#64 0xFF00#64))
    (fun t => t.regs.r15 == 0xFF00#64 && t.rip == 0x500004#64) = true := by decide
/-- 2^64 - 1 and 1: carry and auxiliary carry, zero, even parity, no signed overflow (R197). -/
theorem test_add_carry : after (exec (.add .rax .r9) (withRegs [(.rax, -1), (.r9, 1)]))
    (fun t => t.regs.rax == 0#64 && t.flags == ⟨true, true, true, true, false, false⟩) = true := by decide
/-- 2^63 - 1 and 1: signed overflow (R197). -/
theorem test_add_overflow : after (exec (.add .rax .r9) (withRegs [(.rax, 0x7FFFFFFFFFFFFFFF), (.r9, 1)]))
    (fun t => t.regs.rax == 0x8000000000000000#64 && t.flags == ⟨false, true, true, false, true, true⟩) = true := by decide
/-- 3 minus 5: borrow, negative, and the source unchanged (R198). -/
theorem test_sub_borrow : after (exec (.sub .rbx .rcx) (withRegs [(.rbx, 3), (.rcx, 5)]))
    (fun t => t.regs.rbx == -2#64 && t.regs.rcx == 5#64 && t.flags == ⟨true, false, true, false, true, false⟩) = true := by decide
/-- -2^63 minus 1: signed overflow without borrow (R198). -/
theorem test_sub_overflow : after (exec (.sub .rbx .rcx) (withRegs [(.rbx, 0x8000000000000000), (.rcx, 1)]))
    (fun t => t.regs.rbx == 0x7FFFFFFFFFFFFFFF#64 && t.flags == ⟨false, true, true, false, false, true⟩) = true := by decide
/-- cmp orders destination before source, and writes neither (R199). -/
theorem test_cmp_order : after (exec (.cmp .rdi .rsi) (withRegs [(.rdi, 1), (.rsi, 2)]))
    (fun t => t.regs.rdi == 1#64 && t.regs.rsi == 2#64 && condHolds .l t.flags && !condHolds .g t.flags && t.flags.cf) = true := by
  decide
/-- The conditions on ZF alone (R200). -/
theorem test_conditions_zero :
    ([Cond.e, .ne, .g, .l, .ge, .le].map fun c => condHolds c ⟨false, false, false, true, false, false⟩) =
      [true, false, false, false, true, true] := by decide
/-- The conditions on SF without OF, and on OF without SF (R200). -/
theorem test_conditions_sign :
    ([Cond.e, .ne, .g, .l, .ge, .le].map fun c => condHolds c ⟨false, false, false, false, true, false⟩) =
      [false, true, false, true, false, true] ∧
    ([Cond.e, .ne, .g, .l, .ge, .le].map fun c => condHolds c ⟨false, false, false, false, false, true⟩) =
      [false, true, false, true, false, true] := by decide
/-- The compound clears the upper bytes and reads the old flags (R202). -/
theorem test_set_group_0 : after (exec (.setneG0 .rbx) (withRegs [(.rbx, -1)]))
    (fun t => t.regs.rbx == 1#64 && t.rip == 0x50000A#64) = true := by decide
theorem test_set_group_1 : after (exec (.setgeG1 .r12) (withRegs [(.r12, -1), (.rsp, 5)]))
    (fun t => t.regs.r12 == 1#64 && t.regs.rsp == 5#64 && t.rip == 0x50000B#64) = true := by decide
/-- rsi is cleared and DH, bits 15:8 of rdx, receives the condition (R201, R202). -/
theorem test_set_high_byte : after (exec (.setneG0 .rsi) (withRegs [(.rsi, -1), (.rdx, -1)]))
    (fun t => t.regs.rsi == 0#64 && t.regs.rdx == 0xFFFFFFFFFFFF01FF#64) = true := by decide
/-- ret pops and jumps (R203). -/
theorem test_ret : after (exec .ret (withWord State.reset 0x7fffffffe000#64 0x401000#64))
    (fun t => t.rip == 0x401000#64 && t.regs.rsp == 0x7fffffffe008#64) = true := by decide
/-- A non-canonical return target raises #GP(0) and leaves rsp (R204; log entry 6). -/
theorem test_ret_target : after (exec .ret (withWord State.reset 0x7fffffffe000#64 0x800000000000#64))
    (fun t => t.exception == some .generalProtection && t.rip == 0x500000#64 && t.regs.rsp == 0x7fffffffe000#64) = true := by
  decide
/-- A non-canonical rsp-based access raises #SS(0), an rbx-based one #GP(0) (R204). -/
theorem test_segment_faults :
    after (exec (.storeSib .rsp .rax) (withRegs [(.rsp, 0x800000000000)])) (fun t => t.exception == some .stackFault) = true ∧
    after (exec (.load .rax .rbx) (withRegs [(.rbx, 0x7FFFFFFFFFF9)]))
      (fun t => t.exception == some .generalProtection && t.regs.rax == 0#64) = true := by decide
/-- A read region does not stop a write, and a page fault sets CR2 (R204; log entry 9). -/
theorem test_page_fault :
    let s := { withRegs [(.rbx, 0x2FFC)] with pageFaults := [⟨0x3000, 0x1000, .read, 4#32⟩] }
    after (exec (.load .rax .rbx) s)
      (fun t => t.exception == some (.pageFault 0x3000#64 4#32) && t.cr2 == 0x3000#64 && t.rip == 0x500000#64) = true ∧
    after (exec (.store .rbx .rax) s) (fun t => t.exception == none && t.cr2 == 0#64) = true := by decide
/-- Alignment is checked at CPL 3 only (R204). -/
theorem test_alignment_check :
    let s := { withRegs [(.rbx, 0x1001)] with alignmentCheck := true }
    after (exec (.load .rax .rbx) s) (fun t => t.exception == some .alignmentCheck) = true ∧
    after (exec (.load .rax .rbx) { s with cpl := 0 }) (fun t => t.exception == none) = true := by decide
/-- From reset with a word placed, the first step runs it (log entry 22). -/
theorem test_fetch_word : after (step (State.reset.withFetchWord 24 0x4801C9)) (fun t => t.rip == 0x500003#64 && t.flags.zf) =
    true := by decide

/-! ## Hypotheses that are met: one theorem for each statement that has any, at the ends of the ranges -/

theorem test_witness_UnsignedRoundTrip : (1 ≤ 1 ∧ 0 < 2 ^ 1) ∧ 1 ≤ 64 ∧ 2 ^ 64 - 1 < 2 ^ 64 := by decide
theorem test_witness_TwosComplementPattern :
    (1 ≤ 1 ∧ -(2 : Int) ^ (1 - 1) ≤ -1 ∧ (-1 : Int) < 0) ∧ 1 ≤ 8 ∧ -(2 : Int) ^ (8 - 1) ≤ -128 ∧ (-128 : Int) < 0 := by decide
theorem test_witness_FromIntegerFailsExactly :
    fromIntegerLen 256 8 = Except.error .outOfRange ∧ fromIntegerLen (-129) 8 = Except.error .outOfRange ∧
    fromIntegerLen (-1) 0 = Except.error .outOfRange ∧ fromIntegerLen 255 8 = Except.ok (ones 8) := by decide
theorem test_witness_SignedReadingRoundTrip :
    (1 ≤ 8 ∧ -(2 : Int) ^ (8 - 1) ≤ -128 ∧ (-128 : Int) < 2 ^ (8 - 1)) ∧
    1 ≤ 1 ∧ -(2 : Int) ^ (1 - 1) ≤ 0 ∧ (0 : Int) < 2 ^ (1 - 1) := by decide
theorem test_witness_ByteReversalInvolution : len (zeros 0) % 8 = 0 ∧ len (byteBits 0xC7 ++ byteBits 1) % 8 = 0 := by decide
theorem test_witness_HexRoundTrip :
    len [true, false, true, true] % 4 = 0 ∧ fromHex "0x0a".toList = Except.ok (byteBits 0x0A) := by decide
theorem test_witness_ReversalOfJoin : len (byteBits 1) % 8 = 0 ∧ len (byteBits 2 ++ byteBits 3) % 8 = 0 := by decide
theorem test_witness_AlignmentChecksExactly : reversedBytes [true] = Except.error .alignmentError ∧
    byteLength [true] = Except.error .alignmentError ∧ bytes [true] = Except.error .alignmentError ∧
    toHex [true] = Except.error .alignmentError := by decide
theorem test_witness_OffsetHexValue :
    (fromHex "10".toList = Except.ok (byteBits 0x10) ∧ 1 ≤ len (byteBits 0x10) ∧ 0 ≤ (uint (byteBits 0x10) : Int) + -16) ∧
    fromHex "ff".toList = Except.ok (byteBits 0xFF) ∧ 1 ≤ len (byteBits 0xFF) ∧ 0 ≤ (uint (byteBits 0xFF) : Int) + 1 := by decide
theorem test_witness_ImmSizeIsSmallestClass : Policy.immSize (-128) = Except.ok 1 ∧
    Policy.immSize (2 ^ 64) = Except.error .unsupportedImmediateSize := by decide
theorem test_witness_ImmediatesLittleEndian :
    (-2 ^ 31 ≤ (-2 ^ 31 : Int) ∧ (-2 ^ 31 : Int) < 2 ^ 32) ∧ -2 ^ 63 ≤ (2 ^ 64 - 1 : Int) ∧ (2 ^ 64 - 1 : Int) < 2 ^ 64 := by decide
theorem test_witness_AddressingPolicy : regNumber .r13 = 5 ∧ regNumber .r12 = 4 ∧ regNumber .r11 ≠ 4 ∧ regNumber .r11 ≠ 5 := by
  decide
theorem test_witness_MovImmOutput :
    (-2 ^ 31 ≤ (2 ^ 31 - 1 : Int) ∧ (2 ^ 31 - 1 : Int) ≤ 2 ^ 31 - 1) ∧
    (¬(-2 ^ 31 ≤ (2 ^ 31 : Int) ∧ (2 ^ 31 : Int) ≤ 2 ^ 31 - 1) ∧ -2 ^ 63 ≤ (2 ^ 31 : Int) ∧ (2 ^ 31 : Int) ≤ 2 ^ 64 - 1) ∧
    ((-2 ^ 63 - 1 : Int) < -2 ^ 63 ∨ 2 ^ 64 - 1 < (-2 ^ 63 - 1 : Int)) := by decide
theorem test_witness_EncodeFailsExactly :
    Block.encode (.movImm .rax (2 ^ 64)) = Except.error .unsupportedImmediateSize ∧
    Policy.immSize (2 ^ 64) = Except.error .unsupportedImmediateSize := by decide
theorem test_witness_OutputLengths : ∃ out, Block.encode (.movStore .r13 .rax) = Except.ok out := ⟨_, rfl⟩
theorem test_witness_BlockEmitsItsForm : Block.encode (.movImm .rax (2 ^ 64)) = Except.error .unsupportedImmediateSize ∧
    ∃ out, Block.encode (.setCC .le .r8) = Except.ok out := ⟨by decide, _, rfl⟩
theorem test_witness_OutputRecoversDescriptor :
    (∃ out, Block.encode (.movImm .rax (-2 ^ 31)) = Except.ok out) ∧
    ∃ out, Block.encode (.movImm .rax (-2 ^ 63)) = Except.ok out := ⟨⟨_, rfl⟩, _, rfl⟩
theorem test_witness_EqualBytesBand : (2 ^ 63 ≤ (2 ^ 63 : Int) ∧ (2 ^ 63 : Int) ≤ 2 ^ 64 - 1) ∧
    2 ^ 63 ≤ (2 ^ 64 - 1 : Int) ∧ (2 ^ 64 - 1 : Int) ≤ 2 ^ 64 - 1 := by decide
theorem test_witness_RenderedValueIsFaithful : Block.render (.movImm .rax (-10)) = Block.render (.movImm .rax (-10)) := rfl
theorem test_witness_EncodingMatchesOneRow : (Instr.storeSib .r12 .rax).wellFormed = true ∧
    (rowOf (.storeSib .rsp .rbx)).admits (encode (.storeSib .r12 .rax)) = true := by decide
theorem test_witness_DecodeOfEncode : (Instr.movImm32 .rax 0#32).wellFormed = true ∧
    startsCompound (.movImm32 .rax 0#32) (bytesSetPart ⟨.e, .g0, 1⟩) = false ∧ (Instr.loadDisp8 .rax .r13).wellFormed = true ∧
    startsCompound (.loadDisp8 .rax .r13) [] = false := by decide
theorem test_witness_DecodeIsSound : decode [0x4D#8, 0x8B#8, 0x6D#8, 0x00#8, 0xC3#8] = Except.ok (.loadDisp8 .r13 .r13) := by
  decide
theorem test_witness_StreamLengths : (Instr.movImm64 .r8 0#64).wellFormed = true ∧
    ∀ c g r, Instr.movImm64 .r8 0#64 ≠ setInstr c g r :=
  ⟨rfl, fun c g r => by cases c <;> cases g <;> exact fun h => by cases h⟩
theorem test_witness_ResetStart : ∀ k < 8, canonical .bits48 (byteAddr 0x7FFFFFFFFFF8#64 k) = true := by decide
theorem test_witness_InvariantKept : Inv (placed [0xC3#8]) ∧ ∃ t, step (placed [0xC3#8]) = .next t := ⟨by decide, _, rfl⟩
theorem test_witness_RequestIsAnswered :
    ({ State.reset with request := some (.encode .ret) } : State).request = some (.encode .ret) := rfl
theorem test_witness_RequestsDoNotInterfere : Ready (placed [0x48#8, 0x01#8, 0xC8#8]) ∧
    ∃ t, step (placed [0x48#8, 0x01#8, 0xC8#8]) = .next t := ⟨by decide, _, rfl⟩
theorem test_witness_StepRunsDecoded : Ready (placed [0x48#8, 0x89#8, 0x04#8, 0x24#8]) ∧
    decode (fetchBytes (placed [0x48#8, 0x89#8, 0x04#8, 0x24#8])) = Except.ok (.storeSib .rsp .rax) := by decide
/-- With the REX byte, and without it at both ends of the high-byte numbers and at the last low one. -/
theorem test_witness_LoneSetPartRuns :
    ([⟨.g, .g1, 7⟩, ⟨.e, .g0, 3⟩, ⟨.e, .g0, 4⟩, ⟨.le, .g0, 7⟩] : List SetPart).all (fun p =>
      decide (Ready (placed (bytesSetPart p)) ∧
        fetchBytes (placed (bytesSetPart p)) = bytesSetPart p ++ List.replicate (8 - groupBit p.group) 0)) = true := by decide
/-- Without REX, a lone SETNE with number 3 writes BL and a lone SETE with number 7 writes BH (R201). -/
theorem test_lone_set_part :
    after (execSetPart ⟨.ne, .g0, 3⟩ (withRegs [(.rbx, -1)])) (fun t => t.regs.rbx == 0xFFFFFFFFFFFFFF01#64 && t.rip == 0x500003#64) =
      true ∧
    after (execSetPart ⟨.e, .g0, 7⟩ (withRegs [(.rbx, -1)])) (fun t => t.regs.rbx == 0xFFFFFFFFFFFF00FF#64) = true := by decide
theorem test_witness_TargetStopsByName :
    (∃ s : State, s.request = none ∧ s.exception = some .stackFault) ∧ Ready (placed [0x90#8]) ∧
    decode (fetchBytes (placed [0x90#8])) = Except.error .firstByte ∧ decodeSetPart (fetchBytes (placed [0x90#8])) = none :=
  ⟨⟨State.reset.raiseFault .stackFault, rfl, rfl⟩, by decide⟩
theorem test_witness_EmittedBytesRun : ∃ out,
    Block.encode (.movStore .r12 .rax) = Except.ok out ∧ bytes out = Except.ok [0x49#8, 0x89#8, 0x04#8, 0x24#8] ∧
    formOf (.movStore .r12 .rax) = Except.ok (.storeSib .r12 .rax) ∧ Ready (placed [0x49#8, 0x89#8, 0x04#8, 0x24#8]) ∧
    fetchBytes (placed [0x49#8, 0x89#8, 0x04#8, 0x24#8]) =
      [0x49#8, 0x89#8, 0x04#8, 0x24#8] ++ [0, 0, 0, 0, 0, 0, 0] ∧
    startsCompound (.storeSib .r12 .rax) [0, 0, 0, 0, 0, 0, 0] = false := ⟨_, rfl, by decide⟩
theorem test_witness_MovImmBytesLoadTheValue : ∃ out,
    Block.encode (.movImm .rcx 0) = Except.ok out ∧ bytes out = Except.ok [0x48#8, 0xC7#8, 0xC1#8, 0#8, 0#8, 0#8, 0#8] ∧
    Ready (placed [0x48#8, 0xC7#8, 0xC1#8]) ∧
    fetchBytes (placed [0x48#8, 0xC7#8, 0xC1#8]) = [0x48#8, 0xC7#8, 0xC1#8, 0#8, 0#8, 0#8, 0#8] ++ [0, 0, 0, 0] ∧
    ((0 : Int) = 0 → setPartFor .rcx [0, 0, 0, 0] = none) := ⟨_, rfl, by decide⟩
theorem test_witness_SurroundingsKept : ∃ t, step (placed [0xC3#8]) = .next t ∧ (placed [0xC3#8]).request = none := ⟨_, rfl, rfl⟩
theorem test_witness_RegisterFrame : (Instr.setlG0 .rdi).wellFormed = true ∧
    (∃ t, exec (.setlG0 .rdi) State.reset = .next t) ∧ Reg.rcx ∉ writtenRegs (.setlG0 .rdi) := ⟨rfl, ⟨_, rfl⟩, by decide⟩
theorem test_witness_FlagFrame : writesFlags (.setlG0 .rdi) = false ∧ ∃ t, exec (.setlG0 .rdi) State.reset = .next t :=
  ⟨rfl, _, rfl⟩
/-- A storing form and one that stores nothing; the last address, and one beside the stored bytes. -/
theorem test_witness_MemoryFrame : Memory.wf State.reset.mem = true ∧
    (∃ t, exec (.add .rax .rax) State.reset = .next t) ∧ storeAddress (.add .rax .rax) State.reset = none ∧
    (∃ t, exec (.store .rax .rax) State.reset = .next t) ∧ storeAddress (.store .rax .rax) State.reset = some 0 ∧
    ∀ k < 8, 8 ≠ byteAddr 0 k := ⟨rfl, ⟨_, rfl⟩, rfl, ⟨_, rfl⟩, rfl, by decide⟩
theorem test_witness_FaultRegisterFrame : ∃ t, exec (.cmp .rax .rcx) State.reset = .next t ∧
    accessesMemory (.cmp .rax .rcx) = false ∧ State.reset.exception = none ∧ t.exception = none := ⟨_, rfl, rfl, rfl, rfl⟩
/-- Each form, at the highest address of the lower half and at an address of the upper half. -/
theorem test_witness_StoresComplete :
    (Instr.store .rax .rcx, 3) ∈ [(Instr.store .rax .rcx, 3), (.storeSib .rax .rcx, 4), (.storeDisp8 .rax .rcx, 4)] ∧
    (Instr.storeDisp8 .rbp .rcx, 4) ∈ [(Instr.store .rbp .rcx, 3), (.storeSib .rbp .rcx, 4), (.storeDisp8 .rbp .rcx, 4)] ∧
    Memory.wf (withRegs [(.rax, 0x7FFFFFFFFFF8)]).mem = true ∧
    AccessPasses (withRegs [(.rax, 0x7FFFFFFFFFF8)]) .write (readReg (withRegs [(.rax, 0x7FFFFFFFFFF8)]).regs .rax) ∧
    AccessPasses (withRegs [(.rbp, -8)]) .write (readReg (withRegs [(.rbp, -8)]).regs .rbp) := by decide
theorem test_witness_LoadsComplete :
    (Instr.loadSib .rax .rsp, 4) ∈ [(Instr.load .rax .rsp, 3), (.loadSib .rax .rsp, 4), (.loadDisp8 .rax .rsp, 4)] ∧
    AccessPasses State.reset .read (readReg State.reset.regs .rsp) ∧
    AccessPasses { State.reset with pageFaults := [⟨0x7fffffffe000, 8, .write, 2⟩] } .read
      (readReg State.reset.regs .rsp) := by decide
theorem test_witness_CompareThenCondition : ∃ t, exec (.cmp .rax .rcx) State.reset = .next t := ⟨_, rfl⟩
theorem test_witness_SetOnConditionCompletes : Reg.rbx ∉ [Reg.rsp, .rbp, .rsi, .rdi] ∧ Reg.r12 ∉ [Reg.rsp, .rbp, .rsi, .rdi] := by
  decide
theorem test_witness_SetOnConditionHighByte :
    (Reg.rsp, Reg.rax) ∈ [(Reg.rsp, Reg.rax), (.rbp, .rcx), (.rsi, .rdx), (.rdi, .rbx)] ∧
    (Reg.rdi, Reg.rbx) ∈ [(Reg.rsp, Reg.rax), (.rbp, .rcx), (.rsi, .rdx), (.rdi, .rbx)] := by decide
theorem test_witness_CompoundIsTwoInstructions : Ready (placed (encode (setInstr .le (regGroup .r9) .r9))) ∧
    fetchBytes (placed (encode (setInstr .le (regGroup .r9) .r9))) = encode (setInstr .le (regGroup .r9) .r9) ++ [] := by decide
theorem test_witness_RetCompletes :
    AccessPasses (withWord State.reset 0x7fffffffe000#64 0x401000#64) .read 0x7fffffffe000#64 ∧
    readReg (withWord State.reset 0x7fffffffe000#64 0x401000#64).regs .rsp = 0x7fffffffe000#64 ∧
    canonical .bits48 (readWord (withWord State.reset 0x7fffffffe000#64 0x401000#64).mem 0x7fffffffe000#64).toNat = true := by
  decide
/-- The first non-canonical address as the last byte of an access; a region that covers the last byte; the same access with a
region of the other kind, unaligned and checked. -/
theorem test_witness_AccessFaultsExactly :
    (∃ k < 8, canonical State.reset.linear (byteAddr 0x7FFFFFFFFFF9#64 k) = false) ∧
    (∀ k < 8, canonical State.reset.linear (byteAddr 0x1001#64 k) = true) ∧
    (∃ g ∈ [(⟨0x1008, 1, .write, 6⟩ : FaultRegion)], ∃ k < 8, regionHits .write (byteAddr 0x1001#64 k) g = true) ∧
    (∀ g ∈ [(⟨0x1008, 1, .write, 6⟩ : FaultRegion)], ∀ k < 8, regionHits .read (byteAddr 0x1001#64 k) g = false) ∧
    State.reset.cpl = 3 ∧ (0x1001#64).toNat % 8 ≠ 0 ∧
    accessFault { State.reset with pageFaults := [⟨0x1008, 1, .write, 6⟩], alignmentCheck := true } .write .ds 0x1001#64 =
      some (.pageFault 0x1008#64 6) := ⟨⟨7, by decide⟩, by decide, ⟨⟨0x1008, 1, .write, 6⟩, by simp, 7, by decide⟩, by decide⟩
/-- Each of the four cases: a store, a load, a stack read, and a return target. -/
theorem test_witness_MemoryFormsRaise :
    (∃ a x, Instr.storeSib .rsp .rax ∈ [Instr.store a x, .storeSib a x, .storeDisp8 a x] ∧
      accessFault (withRegs [(.rsp, 0x7FFFFFFFFFF9)]) .write (baseSegment a)
        (readReg (withRegs [(.rsp, 0x7FFFFFFFFFF9)]).regs a) = some .stackFault) ∧
    (∃ d a, Instr.load .rax .rbx ∈ [Instr.load d a, .loadSib d a, .loadDisp8 d a] ∧
      accessFault (withRegs [(.rbx, 0xFFFF7FFFFFFFFFFF)]) .read (baseSegment a)
        (readReg (withRegs [(.rbx, 0xFFFF7FFFFFFFFFFF)]).regs a) = some .generalProtection) ∧
    accessFault (withRegs [(.rsp, 0x800000000000)]) .read .ss (readReg (withRegs [(.rsp, 0x800000000000)]).regs .rsp) =
      some .stackFault ∧
    (accessFault (withWord State.reset 0x7fffffffe000#64 0x800000000000#64) .read .ss 0x7fffffffe000#64 = none ∧
      canonical .bits48 (readWord (withWord State.reset 0x7fffffffe000#64 0x800000000000#64).mem 0x7fffffffe000#64).toNat =
        false) := ⟨⟨.rsp, .rax, by decide⟩, ⟨.rax, .rbx, by decide⟩, by decide⟩

end Sys2Proof.Tests
end

section
/-! The block's side of a step: with a request on the port, `step` is the block's answer and nothing else. -/

namespace Sys2Proof.Machine

/-- The configuration sets no bound on lengths, so no answer is refused for its length (93 I9, 92 D33). -/
@[simp] theorem withinBound_maxLen (r : Response) : Block.withinBound Config.maxLen r = true := rfl

/-- The block answers every request. -/
@[simp] theorem serve_eq_respond (rq : Request) (s : State) : serve rq s = .next (s.respond (Block.answer rq)) := by
  simp [serve]

/-- A pending request goes first, whatever fault waits for delivery (log entry 1). -/
theorem step_of_request {s : State} {rq : Request} (h : s.request = some rq) :
    step s = .next (s.respond (Block.answer rq)) := by
  simp [step, h]

/-- Settles O35: the next state is `s.respond` of the block's answer, and the laws of `respond` read off each field. -/
theorem requestIsAnswered : Obligations.RequestIsAnswered := by
  intro s rq h
  exact ⟨s.respond (Block.answer rq), step_of_request h, by simp⟩

end Sys2Proof.Machine
end

section
/-! The target does not see the host's port: its step from any other contents of the port is the same step, and leaves
those contents as they are. -/

namespace Sys2Proof.Machine

open Safety

/-- The state with other contents of the host's port. -/
def State.withPort (s : State) (q : Option Request) (r : Option Response) : State :=
  { s with request := q, response := r }

section
variable {s t : State} (q : Option Request) (r : Option Response)

@[simp] theorem State.withPort_request : (s.withPort q r).request = q := rfl
@[simp] theorem State.withPort_regs : (s.withPort q r).regs = s.regs := rfl
@[simp] theorem State.withPort_mem : (s.withPort q r).mem = s.mem := rfl
@[simp] theorem State.withPort_linear : (s.withPort q r).linear = s.linear := rfl
@[simp] theorem fetchBytes_withPort : fetchBytes (s.withPort q r) = fetchBytes s := rfl
@[simp] theorem accessFault_withPort (kind : AccessKind) (seg : Segment) (ea : Word) :
    accessFault (s.withPort q r) kind seg ea = accessFault s kind seg ea := rfl

@[simp] theorem State.raiseFault_withPort (e : TargetException) :
    (s.withPort q r).raiseFault e = (s.raiseFault e).withPort q r := rfl
@[simp] theorem State.setReg_withPort (d : Reg) (v : Word) :
    (s.withPort q r).setReg d v = (s.setReg d v).withPort q r := rfl
@[simp] theorem State.setMem_withPort (m : Memory) : (s.withPort q r).setMem m = (s.setMem m).withPort q r := rfl
@[simp] theorem State.advance_withPort (n : Nat) : (s.withPort q r).advance n = (s.advance n).withPort q r := rfl
@[simp] theorem State.jump_withPort (a : Word) : (s.withPort q r).jump a = (s.jump a).withPort q r := rfl
@[simp] theorem runSetPart_withPort (p : SetPart) : runSetPart p (s.withPort q r) = (runSetPart p s).withPort q r := rfl

/-- A store is the same whatever the port holds. -/
theorem storeAt_withPort {ea : Word} {base src : Reg} {n : Nat} (h : storeAt ea base src n s = .next t) :
    storeAt ea base src n (s.withPort q r) = .next (t.withPort q r) := by
  obtain ⟨e, ha, rfl⟩ | ⟨ha, rfl⟩ := storeAt_cases h <;> simp [storeAt, ha]

/-- A load is the same whatever the port holds. -/
theorem loadAt_withPort {ea : Word} {base dst : Reg} {n : Nat} (h : loadAt ea base dst n s = .next t) :
    loadAt ea base dst n (s.withPort q r) = .next (t.withPort q r) := by
  obtain ⟨e, ha, rfl⟩ | ⟨ha, rfl⟩ := loadAt_cases h <;> simp [loadAt, ha]

/-- A return is the same whatever the port holds, in each of its three cases. -/
theorem execRet_withPort (h : execRet s = .next t) : execRet (s.withPort q r) = .next (t.withPort q r) := by
  obtain ⟨e, ha, rfl⟩ | ⟨ha, hc, rfl⟩ | ⟨ha, hc, rfl⟩ := execRet_cases h
  · simp [execRet, ha]
  · simp [execRet, ha, hc]
  · simp [execRet, ha, hc]

/-- No instruction's meaning reads or writes the port: the forms that access memory by their shared operation, the others
because they answer one state built from registers, flags and `rip`. -/
theorem exec_withPort {i : Instr} (h : exec i s = .next t) : exec i (s.withPort q r) = .next (t.withPort q r) := by
  cases i with
  | store | storeSib | storeDisp8 => exact storeAt_withPort q r h
  | load | loadSib | loadDisp8 => exact loadAt_withPort q r h
  | ret => exact execRet_withPort q r h
  | movImm32 | movImm64 | add | sub | cmp | seteG0 | seteG1 | setneG0 | setneG1 | setgG0 | setgG1 | setlG0 | setlG1
  | setgeG0 | setgeG1 | setleG0 | setleG1 =>
    cases h
    rfl

/-- A step of a ready machine is the decoded instruction's meaning. -/
theorem step_of_decode {i : Instr} (hs : Ready s) (hd : decode (fetchBytes s) = .ok i) : step s = exec i s := by
  simp [step, hs.1, hs.2, runTarget, hd]

/-- A step of a ready machine runs a SETcc part that stands alone (log entry 13). -/
theorem step_of_setPart {p : SetPart} {e : DecodeError} (hs : Ready s) (hd : decode (fetchBytes s) = .error e)
    (hp : decodeSetPart (fetchBytes s) = some p) : step s = .next (runSetPart p s) := by
  simp [step, hs.1, hs.2, runTarget, hd, hp, execSetPart]

/-- The target's step is the same whatever answer stands on the port. -/
theorem step_withPort (hs : Ready s) (h : step s = .next t) :
    step (s.withPort none r) = .next (t.withPort none r) := by
  have hs' : Ready (s.withPort none r) := ⟨rfl, hs.2⟩
  obtain ⟨rq, hq, -⟩ | ⟨-, -, ⟨i, hd, hi⟩ | ⟨p, e, hd, hp, rfl⟩⟩ := step_cases h
  · cases hs.1.symm.trans hq
  · rw [step_of_decode hs' (by rwa [fetchBytes_withPort]), exec_withPort none r hi]
  · rw [← fetchBytes_withPort none r] at hd hp
    rw [step_of_setPart hs' hd hp, runSetPart_withPort]

/-- The target's step leaves the port without a request: with its own port put in, `step_withPort` gives the step's own
next state. -/
theorem step_request_none (hs : Ready s) (h : step s = .next t) : t.request = none := by
  have hself : s.withPort none s.response = s := by rw [← hs.1]; rfl
  have ht := step_withPort s.response hs h
  rw [hself, h] at ht
  injection ht with ht
  rw [ht, State.withPort_request]

end

/-- Settles O36: both orders end in the target's next state with the answer on its port, since the target's step is the
same whatever answer stands on the port (`step_withPort`) and leaves no request there (`step_request_none`). -/
theorem requestsDoNotInterfere : Obligations.RequestsDoNotInterfere := by
  intro s t rq hs h
  refine ⟨s.withPort none (some (Block.answer rq)), t.withPort none (some (Block.answer rq)),
    step_of_request rfl, rfl, step_withPort _ hs h, step_of_request rfl, ?_⟩
  rw [← step_request_none hs h]
  rfl

end Sys2Proof.Machine
end

section
/-! The twelve set-on-condition forms as one form, and the shape of every instruction. -/

namespace Sys2Proof

/-- A property of every instruction, form by form: the twelve set-on-condition forms are the one case `setInstr`. -/
theorem Instr.byForm {P : Instr → Prop} (movImm32 : ∀ d imm, P (.movImm32 d imm))
    (movImm64 : ∀ d imm, P (.movImm64 d imm)) (store : ∀ a x, P (.store a x)) (storeSib : ∀ a x, P (.storeSib a x))
    (storeDisp8 : ∀ a x, P (.storeDisp8 a x)) (load : ∀ x a, P (.load x a)) (loadSib : ∀ x a, P (.loadSib x a))
    (loadDisp8 : ∀ x a, P (.loadDisp8 x a)) (add : ∀ d s, P (.add d s)) (sub : ∀ d s, P (.sub d s))
    (cmp : ∀ d s, P (.cmp d s)) (set : ∀ c g r, P (setInstr c g r)) (ret : P .ret) (i : Instr) : P i := by
  cases i with
  | movImm32 | movImm64 | store | storeSib | storeDisp8 | load | loadSib | loadDisp8 | add | sub | cmp => apply_assumption
  | seteG0 r => exact set .e .g0 r
  | seteG1 r => exact set .e .g1 r
  | setneG0 r => exact set .ne .g0 r
  | setneG1 r => exact set .ne .g1 r
  | setgG0 r => exact set .g .g0 r
  | setgG1 r => exact set .g .g1 r
  | setlG0 r => exact set .l .g0 r
  | setlG1 r => exact set .l .g1 r
  | setgeG0 r => exact set .ge .g0 r
  | setgeG1 r => exact set .ge .g1 r
  | setleG0 r => exact set .le .g0 r
  | setleG1 r => exact set .le .g1 r
  | ret => exact ret

section
variable (c : Cond) (g : Group) (r : Reg)

@[simp] theorem wellFormed_setInstr : (setInstr c g r).wellFormed = (regGroup r == g) := by cases c <;> cases g <;> rfl
@[simp] theorem encode_setInstr : encode (setInstr c g r) = bytesSet c g r := by cases c <;> cases g <;> rfl
@[simp] theorem startsCompound_setInstr (bs : List Byte) : startsCompound (setInstr c g r) bs = false := by
  cases c <;> cases g <;> rfl

end

end Sys2Proof
end

section
/-! What the decoder reads from the bytes of each format diagram, whatever follows them. -/

namespace Sys2Proof

@[simp] theorem modOf_modRM (m : BitVec 2) (reg rm : BitVec 3) : modOf (modRM m reg rm) = m := (modRM_fields m reg rm).1
@[simp] theorem regFieldOf_modRM (m : BitVec 2) (reg rm : BitVec 3) : regFieldOf (modRM m reg rm) = reg :=
  (modRM_fields m reg rm).2.1
@[simp] theorem rmOf_modRM (m : BitVec 2) (reg rm : BitVec 3) : rmOf (modRM m reg rm) = rm := (modRM_fields m reg rm).2.2

@[simp] theorem regGroup_rax : regGroup .rax = .g0 := rfl

theorem plainBase_iff (a : Reg) : plainBase a = true ↔ regField a ≠ 4#3 ∧ regField a ≠ 5#3 := by
  obtain ⟨h4, h5⟩ := regField_special a
  simp [plainBase, ← h4, ← h5]
theorem sibBase_iff (a : Reg) : sibBase a = true ↔ regField a = 4#3 := by
  simp [sibBase, ← (regField_special a).1]
theorem disp8Base_iff (a : Reg) : disp8Base a = true ↔ regField a = 5#3 := by
  simp [disp8Base, ← (regField_special a).2]

/-- The full-form opcode `10111ddd` (30 R66). -/
def fullOpcode (n : BitVec 3) : Byte := 0b10111#5 ++ n

/-- The full-form opcode is no other opcode, and gives back its two fields (30 R64, R66). -/
theorem fullOpcode_fields : ∀ n, fullOpcode n ≠ opcMovRI32 ∧ (fullOpcode n).extractLsb' 3 5 = 0b10111#5 ∧
    rmOf (fullOpcode n) = n := by decide

/-- A byte with the full form's upper field is the full-form opcode of its lower field (30 R64). -/
theorem eq_fullOpcode : ∀ b : Byte, b.extractLsb' 3 5 = 0b10111#5 → b = fullOpcode (rmOf b) := by decide

/-- After a REX byte the decoder reads the opcode, with the groups R and B (30 R57). -/
@[simp] theorem decode_rexByte (rm reg : Reg) (bs : List Byte) :
    decode (rexByte rm reg :: bs) = decodeOpcode (regGroup reg) (regGroup rm) bs := by
  simp [decode, rexGroups_rexByte rm reg]

section
variable (r b : Group) (bs : List Byte)

@[simp] theorem decodeOpcode_movRI32 : decodeOpcode .g0 b (opcMovRI32 :: bs) = decodeRI32 b bs := rfl
@[simp] theorem decodeOpcode_full (n : BitVec 3) :
    decodeOpcode .g0 b (fullOpcode n :: bs) = decodeOI64 (regOf b n) bs := by
  simp [decodeOpcode, fullOpcode_fields n]
@[simp] theorem decodeOpcode_store :
    decodeOpcode r b (opcMovStore :: bs) = decodeMem .store .storeSib .storeDisp8 r b bs := rfl
@[simp] theorem decodeOpcode_load : decodeOpcode r b (opcMovLoad :: bs) =
    decodeMem (fun a d => .load d a) (fun a d => .loadSib d a) (fun a d => .loadDisp8 d a) r b bs := rfl
@[simp] theorem decodeOpcode_add : decodeOpcode r b (aluOp .add :: bs) = decodeAlu .add r b bs := rfl
@[simp] theorem decodeOpcode_sub : decodeOpcode r b (aluOp .sub :: bs) = decodeAlu .sub r b bs := rfl
@[simp] theorem decodeOpcode_cmp : decodeOpcode r b (aluOp .cmp :: bs) = decodeAlu .cmp r b bs := rfl

end

section
variable (plain sib disp8 : Reg → Reg → Instr) {a : Reg} (x : Reg) (bs : List Byte)

/-- The plain memory form (30 R67, R68). -/
theorem decodeMem_plain (h : plainBase a = true) :
    decodeMem plain sib disp8 (regGroup x) (regGroup a) (modRM modIndirect (regField x) (regField a) :: bs) =
      .ok (plain a x) := by
  obtain ⟨h4, h5⟩ := (plainBase_iff a).1 h
  simp [decodeMem, h4, h5]

/-- The SIB memory form (30 R67, R68). -/
theorem decodeMem_sib (h : sibBase a = true) :
    decodeMem plain sib disp8 (regGroup x) (regGroup a)
      (modRM modIndirect (regField x) (regField a) :: sibNoIndex :: bs) = .ok (sib a x) := by
  have ha := (sibBase_iff a).1 h
  simp [decodeMem, ← ha]

/-- The disp8 memory form (30 R67, R68). -/
theorem decodeMem_disp8 (h : disp8Base a = true) :
    decodeMem plain sib disp8 (regGroup x) (regGroup a)
      (modRM modDisp8 (regField x) (regField a) :: disp8Zero :: bs) = .ok (disp8 a x) := by
  have ha := (disp8Base_iff a).1 h
  simp [decodeMem, ← ha, modDisp8, modIndirect]

/-- The register-register form (30 R69). -/
@[simp] theorem decodeAlu_modRM (form : Reg → Reg → Instr) (d s : Reg) :
    decodeAlu form (regGroup s) (regGroup d) (modRM modDirect (regField s) (regField d) :: bs) = .ok (form d s) := by
  simp [decodeAlu]

end

/-- F-RI32 reads as the move, where the bytes that follow do not complete it to a compound (30 R65). -/
theorem decode_bytesRI32 {r : Reg} {imm : BitVec 32} {bs : List Byte} (h : startsCompound (.movImm32 r imm) bs = false) :
    decode (bytesRI32 r imm ++ bs) = .ok (.movImm32 r imm) := by
  have hnone : imm = 0#32 → setPartFor r bs = none := by simpa [startsCompound] using h
  by_cases h0 : imm = 0#32
  · simp [bytesRI32, decodeRI32, imm32_of_bytes, h0, hnone h0]
  · simp [bytesRI32, decodeRI32, imm32_of_bytes, h0]

/-- A zeroing move reads as the compound that the bytes after it complete (30 R70, R71; log entry 12). -/
theorem decode_bytesRI32_zero {r : Reg} {c : Cond} {bs : List Byte} (h : setPartFor r bs = some c) :
    decode (bytesRI32 r 0 ++ bs) = .ok (setInstr c (regGroup r) r) := by
  simp [bytesRI32, decodeRI32, imm32_of_bytes, h]

/-- A zeroing move and the SETcc part of its register read as the compound (30 R70, R71). -/
theorem setPartFor_bytesSetPart (c : Cond) (r : Reg) (bs : List Byte) :
    setPartFor r (bytesSetPart ⟨c, regGroup r, regField r⟩ ++ bs) = some c := by
  simp [setPartFor, decodeSetPart_bytesSetPart]

/-- F-OI64 reads as the move of any pattern (30 R66). -/
theorem decode_bytesOI64 (r : Reg) (imm : BitVec 64) (bs : List Byte) :
    decode (bytesOI64 r imm ++ bs) = .ok (.movImm64 r imm) := by
  have h : bytesOI64 r imm ++ bs = rexByte r .rax :: fullOpcode (regField r) :: (Machine.wordBytes imm ++ bs) := rfl
  simp [h, Machine.wordBytes, decodeOI64, Machine.word_of_bytes]

/-- A set-on-condition reads as it (30 R70, R71). -/
theorem decode_bytesSet (c : Cond) (r : Reg) (bs : List Byte) :
    decode (bytesSet c (regGroup r) r ++ bs) = .ok (setInstr c (regGroup r) r) := by
  rw [bytesSet, List.append_assoc, decode_bytesRI32_zero (setPartFor_bytesSetPart c r bs)]

/-- Settles O28: form by form, each by what the decoder reads from its format diagram; for F-RI32 the bytes that
follow decide, and `startsCompound` is exactly that they complete a zero to a compound. -/
theorem decodeOfEncode : Obligations.DecodeOfEncode := by
  intro i bs hwf hbs
  induction i using Instr.byForm with
  | movImm32 r imm => exact decode_bytesRI32 hbs
  | movImm64 r imm => exact decode_bytesOI64 r imm bs
  | store a x => simp [encode, bytesMem, decodeMem_plain _ _ _ x bs hwf]
  | storeSib a x => simp [encode, bytesMemSib, decodeMem_sib _ _ _ x bs hwf]
  | storeDisp8 a x => simp [encode, bytesMemDisp8, decodeMem_disp8 _ _ _ x bs hwf]
  | load x a => simp [encode, bytesMem, decodeMem_plain _ _ _ x bs hwf]
  | loadSib x a => simp [encode, bytesMemSib, decodeMem_sib _ _ _ x bs hwf]
  | loadDisp8 x a => simp [encode, bytesMemDisp8, decodeMem_disp8 _ _ _ x bs hwf]
  | add d s | sub d s | cmp d s => simp [encode, bytesAlu]
  | set c g r =>
    obtain rfl : regGroup r = g := by simpa using hwf
    simpa using decode_bytesSet c r bs
  | ret => rfl

end Sys2Proof
end

section
/-! What the decoder accepts: each reader is inverted once, and answers only for the bytes of a format diagram. -/

namespace Sys2Proof

open Machine (regOf_regField wordBytes)

/-- Every group and number name a register (10_state R21). -/
theorem exists_reg (g : Group) (n : BitVec 3) : ∃ r, regGroup r = g ∧ regField r = n := ⟨regOf g n, regOf_fields g n⟩

/-- Every byte is a ModRM whose fields name two registers of given groups (30 R59). -/
theorem exists_modRM (m : Byte) (r b : Group) :
    ∃ mo x a, m = modRM mo (regField x) (regField a) ∧ regGroup x = r ∧ regGroup a = b := by
  obtain ⟨x, hr, hx⟩ := exists_reg r (regFieldOf m)
  obtain ⟨a, hb, ha⟩ := exists_reg b (rmOf m)
  exact ⟨modOf m, x, a, by rw [hx, ha, modRM_of_fields], hr, hb⟩

/-- Four bytes are the bytes of the 32-bit immediate they spell (30 R62). -/
theorem exists_imm32 (b0 b1 b2 b3 : Byte) :
    ∃ v : BitVec 32, byteOf v 0 = b0 ∧ byteOf v 1 = b1 ∧ byteOf v 2 = b2 ∧ byteOf v 3 = b3 := by
  refine ⟨b3 ++ b2 ++ b1 ++ b0, ?_, ?_, ?_, ?_⟩ <;> ext i hi <;>
    simp only [byteOf, BitVec.getElem_extractLsb', BitVec.getLsbD_append] <;> interval_cases i <;> simp

/-- Eight bytes are the bytes of the 64-bit immediate they spell (30 R63). -/
theorem exists_imm64 (b0 b1 b2 b3 b4 b5 b6 b7 : Byte) :
    ∃ v : BitVec 64, wordBytes v = [b0, b1, b2, b3, b4, b5, b6, b7] := by
  refine ⟨b7 ++ b6 ++ b5 ++ b4 ++ b3 ++ b2 ++ b1 ++ b0, ?_⟩
  simp only [wordBytes, List.cons.injEq, and_true]
  refine ⟨?_, ?_, ?_, ?_, ?_, ?_, ?_, ?_⟩ <;> ext i hi <;>
    simp only [byteOf, BitVec.getElem_extractLsb', BitVec.getLsbD_append] <;> interval_cases i <;> simp

/-- A SETcc body answers only for an opcode pair and ModRM `11 000 nnn` (30 R70). -/
theorem setBody_sound {g : Group} {bs : List Byte} {p : SetPart} (h : setBody g bs = some p) :
    p.group = g ∧ ∃ tail, bs = (ccOp p.cond).1 :: (ccOp p.cond).2 :: modRM modDirect 0 p.number :: tail := by
  unfold setBody at h
  split at h
  · rename_i b0 b1 m tail
    split at h
    · rename_i c hc
      obtain ⟨rfl, rfl⟩ := ccOp_of_condOf hc
      split at h
      · rename_i hm
        injection h with h
        subst h
        exact ⟨rfl, tail, by rw [← hm.1, ← hm.2, modRM_of_fields]⟩
      · cases h
    · cases h
  · cases h

/-- A SETcc part is read only from its bytes (30 R70, R71). -/
theorem decodeSetPart_sound {bs : List Byte} {p : SetPart} (h : decodeSetPart bs = some p) :
    ∃ tail, bs = bytesSetPart p ++ tail := by
  obtain ⟨c, g, n⟩ := p
  cases bs with
  | nil => cases h
  | cons b bs =>
    rw [decodeSetPart] at h
    split at h
    · obtain ⟨rfl, tail, rfl⟩ := setBody_sound h
      subst b
      exact ⟨tail, rfl⟩
    · obtain ⟨rfl, tail, hbs⟩ := setBody_sound h
      exact ⟨tail, hbs⟩

/-- Bytes complete a zeroing of `r` only where they begin with the SETcc part of `r` (30 R70, R71). -/
theorem setPartFor_sound {r : Reg} {bs : List Byte} {c : Cond} (h : setPartFor r bs = some c) :
    ∃ tail, bs = bytesSetPart ⟨c, regGroup r, regField r⟩ ++ tail := by
  unfold setPartFor at h
  split at h
  · rename_i p hp
    split at h
    · rename_i hr
      rw [← hr.1, ← hr.2, ← Option.some.inj h]
      exact decodeSetPart_sound hp
    · cases h
  · cases h

/-- The instruction is well formed, the bytes begin with its bytes, and what follows does not complete it to a compound. -/
def BeginsWith (bs : List Byte) (i : Instr) : Prop :=
  i.wellFormed = true ∧ ∃ rest, bs = encode i ++ rest ∧ startsCompound i rest = false

/-- The reader of the memory forms answers for one of the three forms, by mod and rm (30 R67, R68, R75, R76). -/
theorem decodeMem_sound {plain sib disp8 : Reg → Reg → Instr} {r b : Group} {bs : List Byte} {i : Instr}
    (h : decodeMem plain sib disp8 r b bs = .ok i) : ∃ a x tail, regGroup a = b ∧ regGroup x = r ∧
      ((i = plain a x ∧ plainBase a = true ∧ bs = modRM modIndirect (regField x) (regField a) :: tail) ∨
       (i = sib a x ∧ sibBase a = true ∧ bs = modRM modIndirect (regField x) (regField a) :: sibNoIndex :: tail) ∨
       (i = disp8 a x ∧ disp8Base a = true ∧ bs = modRM modDisp8 (regField x) (regField a) :: disp8Zero :: tail)) := by
  cases bs with
  | nil => cases h
  | cons m rest =>
    obtain ⟨mo, x, a, rfl, rfl, rfl⟩ := exists_modRM m r b
    simp only [decodeMem, modOf_modRM, regFieldOf_modRM, rmOf_modRM, regOf_regField] at h
    split at h
    · rename_i hmo
      subst hmo
      split at h
      · rename_i h4
        split at h
        · rename_i s tail
          split at h
          · rename_i hs
            subst hs
            exact ⟨a, x, tail, rfl, rfl, .inr (.inl ⟨(Except.ok.inj h).symm, (sibBase_iff a).2 h4, rfl⟩)⟩
          · cases h
        · cases h
      · rename_i h4
        split at h
        · cases h
        · rename_i h5
          exact ⟨a, x, rest, rfl, rfl, .inl ⟨(Except.ok.inj h).symm, (plainBase_iff a).2 ⟨h4, h5⟩, rfl⟩⟩
    · split at h
      · rename_i hmo
        subst hmo
        split at h
        · rename_i h5
          split at h
          · rename_i d tail
            split at h
            · rename_i hd
              subst hd
              exact ⟨a, x, tail, rfl, rfl, .inr (.inr ⟨(Except.ok.inj h).symm, (disp8Base_iff a).2 h5, rfl⟩)⟩
            · cases h
          · cases h
        · cases h
      · cases h

/-- The reader of the register-register forms answers only for mod 11 (30 R69). -/
theorem decodeAlu_sound {form : Reg → Reg → Instr} {r b : Group} {bs : List Byte} {i : Instr}
    (h : decodeAlu form r b bs = .ok i) : ∃ d s tail, regGroup d = b ∧ regGroup s = r ∧ i = form d s ∧
      bs = modRM modDirect (regField s) (regField d) :: tail := by
  cases bs with
  | nil => cases h
  | cons m tail =>
    obtain ⟨mo, s, d, rfl, rfl, rfl⟩ := exists_modRM m r b
    simp only [decodeAlu, modOf_modRM, regFieldOf_modRM, rmOf_modRM, regOf_regField] at h
    split at h
    · rename_i hmo
      subst hmo
      exact ⟨d, s, tail, rfl, rfl, (Except.ok.inj h).symm, rfl⟩
    · cases h

/-- F-RI32's reader answers the move, or the compound that the bytes after a zero complete (30 R65, R70, R71). -/
theorem decodeRI32_sound {b : Group} {bs : List Byte} {i : Instr} (h : decodeRI32 b bs = .ok i) :
    BeginsWith (rexTab b .g0 :: opcMovRI32 :: bs) i := by
  unfold decodeRI32 at h
  split at h
  · rename_i m b0 b1 b2 b3 tail
    obtain ⟨mo, x, d, rfl, -, rfl⟩ := exists_modRM m .g0 b
    obtain ⟨v, rfl, rfl, rfl, rfl⟩ := exists_imm32 b0 b1 b2 b3
    simp only [modOf_modRM, regFieldOf_modRM, rmOf_modRM, regOf_regField, imm32_of_bytes] at h
    split at h
    · rename_i hm
      rw [hm.1, hm.2]
      split at h
      · rename_i hv
        subst hv
        split at h
        · rename_i c hc
          obtain ⟨rest, rfl⟩ := setPartFor_sound hc
          rw [← Except.ok.inj h]
          exact ⟨by simp, rest, by simp [bytesSet, bytesRI32, rexByte], by simp⟩
        · rename_i hnone
          rw [← Except.ok.inj h]
          exact ⟨rfl, tail, rfl, by simp [startsCompound, hnone]⟩
      · rename_i hv
        rw [← Except.ok.inj h]
        exact ⟨rfl, tail, rfl, by rw [startsCompound, decide_eq_false hv, Bool.false_and]⟩
    · cases h
  · cases h

/-- F-OI64's reader answers the move of the eight bytes (30 R66). -/
theorem decodeOI64_sound {d : Reg} {bs : List Byte} {i : Instr} (h : decodeOI64 d bs = .ok i) :
    BeginsWith (rexTab (regGroup d) .g0 :: fullOpcode (regField d) :: bs) i := by
  unfold decodeOI64 at h
  split at h
  · rename_i b0 b1 b2 b3 b4 b5 b6 b7 tail
    obtain ⟨v, hv⟩ := exists_imm64 b0 b1 b2 b3 b4 b5 b6 b7
    simp only [wordBytes, List.cons.injEq, and_true] at hv
    obtain ⟨rfl, rfl, rfl, rfl, rfl, rfl, rfl, rfl⟩ := hv
    rw [Machine.word_of_bytes] at h
    rw [← Except.ok.inj h]
    exact ⟨rfl, tail, rfl, rfl⟩
  · cases h

/-- After a REX byte, each opcode's reader answers only for the bytes of one of its forms (30 R58). -/
theorem decodeOpcode_sound {r b : Group} {bs : List Byte} {i : Instr} (h : decodeOpcode r b bs = .ok i) :
    BeginsWith (rexTab b r :: bs) i := by
  cases bs with
  | nil => cases h
  | cons op bs =>
    simp only [decodeOpcode] at h
    split at h
    · split at h
      · subst op r
        exact decodeRI32_sound h
      · cases h
    split at h
    · rename_i hop
      split at h
      · obtain ⟨d, rfl, hd⟩ := exists_reg b (rmOf op)
        rw [← hd, regOf_regField] at h
        rw [eq_fullOpcode op hop, ← hd]
        subst r
        exact decodeOI64_sound h
      · cases h
    split at h
    · subst op
      obtain ⟨a, x, tail, rfl, rfl, ⟨rfl, hwf, rfl⟩ | ⟨rfl, hwf, rfl⟩ | ⟨rfl, hwf, rfl⟩⟩ := decodeMem_sound h <;>
        exact ⟨hwf, tail, rfl, rfl⟩
    split at h
    · subst op
      obtain ⟨a, x, tail, rfl, rfl, ⟨rfl, hwf, rfl⟩ | ⟨rfl, hwf, rfl⟩ | ⟨rfl, hwf, rfl⟩⟩ := decodeMem_sound h <;>
        exact ⟨hwf, tail, rfl, rfl⟩
    iterate 3
      split at h
      · subst op
        obtain ⟨d, s, tail, rfl, rfl, rfl, rfl⟩ := decodeAlu_sound h
        exact ⟨rfl, tail, rfl, rfl⟩
    cases h

/-- Settles O29: the first byte is C3, or the REX byte of two groups, and then `decodeOpcode_sound`. -/
theorem decodeIsSound : Obligations.DecodeIsSound := by
  intro bs i h
  cases bs with
  | nil => cases h
  | cons b bs =>
    rw [decode] at h
    split at h
    · subst b
      rw [← Except.ok.inj h]
      exact ⟨rfl, bs, rfl, rfl⟩
    · split at h
      · rename_i r g hrex
        rw [rexTab_of_rexGroups hrex]
        exact decodeOpcode_sound h
      · cases h

end Sys2Proof
end

section
/-! The length that a reader of the block's output takes from the leading bytes (30 R74). -/

namespace Sys2Proof

/-- Which of the four REX bytes comes first does not matter to the length (30 R74). -/
theorem unitLength_rexByte (rm reg : Reg) (bs : List Byte) : unitLength (rexByte rm reg :: bs) = unitLength (0x48 :: bs) := by
  unfold rexByte
  cases regGroup rm <;> cases regGroup reg <;> rfl

/-- A compact move's length, whatever it loads (30 R65). -/
theorem unitLength_bytesRI32 (r : Reg) (imm : BitVec 32) (bs : List Byte) : unitLength (bytesRI32 r imm ++ bs) = some 7 :=
  unitLength_rexByte r .rax _

/-- The full-form opcode is read by its upper field alone (30 R64). -/
theorem unitLength_fullOpcode (n : BitVec 3) (bs : List Byte) : unitLength (0x48 :: fullOpcode n :: bs) = some 10 := by
  obtain ⟨hne, hfield, -⟩ := fullOpcode_fields n
  simp [unitLength, hne, hfield, opcRet, rexBOnly, rexGroups, rexTab]

section
variable {opc : Byte} (h : opc = opcMovStore ∨ opc = opcMovLoad)
include h

/-- A memory form's length is read from mod and rm (30 R67, R68, R74). -/
theorem unitLength_modRM (mo : BitVec 2) (reg rm : BitVec 3) (bs : List Byte) :
    unitLength (0x48 :: opc :: modRM mo reg rm :: bs) =
      some (if (mo = modIndirect ∧ rm = 4#3) ∨ mo = modDisp8 then 4 else 3) := by
  obtain ⟨hri, hoi⟩ : opc ≠ opcMovRI32 ∧ opc.extractLsb' 3 5 ≠ 0b10111#5 := by
    obtain rfl | rfl := h <;> decide
  simp only [unitLength, hri, hoi, h, modOf_modRM, rmOf_modRM]
  by_cases hsib : mo = modIndirect ∧ rm = 4#3
  · simp [hsib, opcRet, rexBOnly, rexGroups, rexTab]
  · simp only [ite_or, hsib]
    simp [hsib, opcRet, rexBOnly, rexGroups, rexTab, apply_ite some]

/-- A plain memory form has no byte after ModRM (30 R67, R68). -/
theorem unitLength_bytesMem {a : Reg} (ha : plainBase a = true) (x : Reg) (bs : List Byte) :
    unitLength (bytesMem opc a x ++ bs) = some 3 := by
  rw [bytesMem, List.cons_append, unitLength_rexByte, List.cons_append, List.cons_append, unitLength_modRM h]
  simp [((plainBase_iff a).1 ha).1, modIndirect, modDisp8]

/-- A SIB memory form has its SIB byte (30 R67, R68). -/
theorem unitLength_bytesMemSib {a : Reg} (ha : sibBase a = true) (x : Reg) (bs : List Byte) :
    unitLength (bytesMemSib opc a x ++ bs) = some 4 := by
  rw [bytesMemSib, List.cons_append, unitLength_rexByte, List.cons_append, List.cons_append, unitLength_modRM h]
  simp [(sibBase_iff a).1 ha]

/-- A disp8 memory form has its displacement (30 R67, R68). -/
theorem unitLength_bytesMemDisp8 (a x : Reg) (bs : List Byte) : unitLength (bytesMemDisp8 opc a x ++ bs) = some 4 := by
  rw [bytesMemDisp8, List.cons_append, unitLength_rexByte, List.cons_append, List.cons_append, unitLength_modRM h]
  simp

end

/-- A register-register form's length (30 R69). -/
theorem unitLength_bytesAlu (op : AluOp) (d s : Reg) (bs : List Byte) : unitLength (bytesAlu op d s ++ bs) = some 3 := by
  rw [bytesAlu, List.cons_append, unitLength_rexByte]
  cases op <;> rfl

/-- A SETcc part is read as a machine instruction of its own (30 R74). -/
theorem unitLength_bytesSetPart (p : SetPart) (bs : List Byte) :
    unitLength (bytesSetPart p ++ bs) = some (3 + groupBit p.group) := by
  obtain ⟨c, g, n⟩ := p
  cases g <;> cases c <;> rfl

/-- The encoding has its form's length (30 R56). -/
theorem length_encode (i : Instr) : (encode i).length = formLength i := by cases i <;> rfl

theorem length_bytesSet (c : Cond) (g : Group) (r : Reg) : (bytesSet c g r).length = 10 + groupBit g := by
  cases g <;> rfl

/-- Settles O30: form by form; a compound is the zeroing move's bytes before the SETcc part's. -/
theorem streamLengths : Obligations.StreamLengths := by
  refine ⟨fun i bs hwf hset => ?_, fun c r bs => ?_⟩
  · induction i using Instr.byForm with
    | movImm32 r imm => exact unitLength_bytesRI32 r imm bs
    | movImm64 r imm => exact (unitLength_rexByte r .rax _).trans (unitLength_fullOpcode (regField r) _)
    | store a x => exact unitLength_bytesMem (.inl rfl) hwf x bs
    | storeSib a x => exact unitLength_bytesMemSib (.inl rfl) hwf x bs
    | storeDisp8 a x => exact unitLength_bytesMemDisp8 (.inl rfl) a x bs
    | load x a => exact unitLength_bytesMem (.inr rfl) hwf x bs
    | loadSib x a => exact unitLength_bytesMemSib (.inr rfl) hwf x bs
    | loadDisp8 x a => exact unitLength_bytesMemDisp8 (.inr rfl) a x bs
    | add d s => exact unitLength_bytesAlu .add d s bs
    | sub d s => exact unitLength_bytesAlu .sub d s bs
    | cmp d s => exact unitLength_bytesAlu .cmp d s bs
    | set c g r => exact absurd rfl (hset c g r)
    | ret => rfl
  · have hdrop : (bytesSet c (regGroup r) r).drop 7 = bytesSetPart ⟨c, regGroup r, regField r⟩ := rfl
    simp only [encode_setInstr]
    refine ⟨?_, ?_, length_bytesSet c _ r⟩
    · rw [bytesSet, List.append_assoc, unitLength_bytesRI32]
    · rw [hdrop, unitLength_bytesSetPart]

end Sys2Proof
end

section
/-! The opcode table: a row compares byte for byte, and no two rows agree with one sequence of bytes. -/

namespace Sys2Proof

/-- One more byte at the end of a number's spelling, masked (opcode_table.json). -/
theorem mul_add_and (n m a b : Nat) (ha : a < 256) (hb : b < 256) :
    (n * 256 + a) &&& (m * 256 + b) = (n &&& m) * 256 + (a &&& b) := by
  have hab : a &&& b < 256 := Nat.and_lt_two_pow a (n := 8) hb
  rw [Nat.mul_comm n, Nat.mul_comm m, Nat.mul_comm (n &&& m)]
  refine Nat.eq_of_testBit_eq fun i => ?_
  rw [Nat.testBit_and, Nat.testBit_two_pow_mul_add (i := 8) n ha, Nat.testBit_two_pow_mul_add (i := 8) m hb,
    Nat.testBit_two_pow_mul_add (i := 8) _ hab]
  split <;> simp

/-- Masking two spellings from any leading numbers masks each byte. -/
theorem foldl_and (bs ms : List Byte) (h : bs.length = ms.length) (n m : Nat) :
    bs.foldl (fun n b => n * 256 + b.toNat) n &&& ms.foldl (fun n b => n * 256 + b.toNat) m =
      (List.zipWith (· &&& ·) bs ms).foldl (fun n b => n * 256 + b.toNat) (n &&& m) := by
  induction bs generalizing ms n m with
  | nil => rw [List.eq_nil_of_length_eq_zero h.symm]; rfl
  | cons b bs ih =>
    obtain _ | ⟨x, ms⟩ := ms
    · cases h
    · simp [ih ms (Nat.succ.inj h), mul_add_and _ _ _ _ b.isLt x.isLt]

/-- Masking the number that bytes spell masks each byte. -/
theorem bigEndian_and (bs ms : List Byte) (h : bs.length = ms.length) :
    bigEndian bs &&& bigEndian ms = bigEndian (List.zipWith (· &&& ·) bs ms) := foldl_and bs ms h 0 0

/-- The rows of the opcode table (30 R83). -/
def opcodeRows : List OpcodeRow :=
  [rowOf (.movImm32 .rax 0), rowOf (.movImm64 .rax 0), rowOf (.store .rax .rax), rowOf (.storeSib .rax .rax),
    rowOf (.storeDisp8 .rax .rax), rowOf (.load .rax .rax), rowOf (.loadSib .rax .rax), rowOf (.loadDisp8 .rax .rax),
    rowOf (.add .rax .rax), rowOf (.sub .rax .rax), rowOf (.cmp .rax .rax), rowOf (.seteG0 .rax), rowOf (.seteG1 .rax),
    rowOf (.setneG0 .rax), rowOf (.setneG1 .rax), rowOf (.setgG0 .rax), rowOf (.setgG1 .rax), rowOf (.setlG0 .rax),
    rowOf (.setlG1 .rax), rowOf (.setgeG0 .rax), rowOf (.setgeG1 .rax), rowOf (.setleG0 .rax), rowOf (.setleG1 .rax),
    rowOf .ret]

theorem rowOf_mem (i : Instr) : rowOf i ∈ opcodeRows := by
  cases i <;> simp [opcodeRows, rowOf]

/-- A row admits bytes of its length that its mask's bytes turn into its match's bytes. -/
theorem admits_of_masked {row : OpcodeRow} {bs ms ps : List Byte} (hl : bs.length = row.length)
    (hml : ms.length = row.length) (hm : bigEndian ms = row.mask) (hp : bigEndian ps = row.pattern)
    (h : List.zipWith (· &&& ·) bs ms = ps) : row.admits bs = true := by
  rw [OpcodeRow.admits, ← hm, bigEndian_and _ _ (hl.trans hml.symm), h, hp, hl]
  simp

/-- Two rows of one length differ in a bit that both fix. -/
theorem opcodeRows_disjoint : ∀ p ∈ opcodeRows, ∀ q ∈ opcodeRows, p.length = q.length →
    p.pattern &&& q.mask = q.pattern &&& p.mask → p = q := by decide

/-- Rows that agree with the same bytes are one row (30 R83). -/
theorem row_unique {i j : Instr} {bs : List Byte} (hi : (rowOf i).admits bs = true) (hj : (rowOf j).admits bs = true) :
    rowOf j = rowOf i := by
  simp only [OpcodeRow.admits, Bool.and_eq_true, beq_iff_eq] at hi hj
  obtain ⟨hli, hpi⟩ := hi
  obtain ⟨hlj, hpj⟩ := hj
  refine opcodeRows_disjoint _ (rowOf_mem j) _ (rowOf_mem i) (hlj.symm.trans hli) ?_
  rw [← hpi, ← hpj, Nat.and_right_comm]

section
variable (r a x : Reg)

/-- A form with two registers leaves REX.R and REX.B open (30 R57). -/
theorem rexByte_and_RB : rexByte a x &&& 0xfa#8 = 0x48#8 := by
  unfold rexByte
  cases regGroup a <;> cases regGroup x <;> rfl

/-- A form with one register leaves REX.B open (30 R57). -/
theorem rexByte_and_B : rexByte r .rax &&& 0xfe#8 = 0x48#8 := by
  unfold rexByte
  cases regGroup r <;> rfl

theorem fullOpcode_and : ∀ n, fullOpcode n &&& 0xf8#8 = 0xb8#8 := by decide
theorem modRM_and_opcodeExtension : ∀ rm, modRM modDirect 0#3 rm &&& 0xf8#8 = 0xc0#8 := by decide
theorem modRM_direct_and_mod : ∀ reg rm, modRM modDirect reg rm &&& 0xc0#8 = 0xc0#8 := by decide
theorem modRM_indirect_and_mod : ∀ reg rm, modRM modIndirect reg rm &&& 0xc0#8 = 0x00#8 := by decide
theorem modRM_indirect_and_sib : ∀ reg, modRM modIndirect reg 4#3 &&& 0xc7#8 = 0x04#8 := by decide
theorem modRM_disp8_and_base : ∀ reg, modRM modDisp8 reg 5#3 &&& 0xc7#8 = 0x45#8 := by decide
theorem byte_and_ff : ∀ b : Byte, b &&& 0xff#8 = b := by decide

/-- F-RI32 fixes all but REX.B, the register and the immediate (30 R65). -/
theorem bytesRI32_masked (imm : BitVec 32) :
    List.zipWith (· &&& ·) (bytesRI32 r imm) [0xfe#8, 0xff#8, 0xf8#8, 0#8, 0#8, 0#8, 0#8] =
      [0x48#8, 0xc7#8, 0xc0#8, 0#8, 0#8, 0#8, 0#8] := by
  simp [bytesRI32, opcMovRI32, rexByte_and_B, modRM_and_opcodeExtension]

/-- F-OI64 fixes all but REX.B, the register and the immediate (30 R66). -/
theorem bytesOI64_masked (imm : BitVec 64) :
    List.zipWith (· &&& ·) (bytesOI64 r imm) [0xfe#8, 0xf8#8, 0#8, 0#8, 0#8, 0#8, 0#8, 0#8, 0#8, 0#8] =
      [0x48#8, 0xb8#8, 0#8, 0#8, 0#8, 0#8, 0#8, 0#8, 0#8, 0#8] := by
  have hop : 0b10111#5 ++ regField r &&& 0xf8#8 = 0xb8#8 := fullOpcode_and (regField r)
  simp [bytesOI64, rexByte_and_B, hop]

/-- The plain memory forms leave both registers open (30 R67, R68). -/
theorem bytesMem_masked (opc : Byte) :
    List.zipWith (· &&& ·) (bytesMem opc a x) [0xfa#8, 0xff#8, 0xc0#8] = [0x48#8, opc, 0x00#8] := by
  simp [bytesMem, rexByte_and_RB, modRM_indirect_and_mod, byte_and_ff]

/-- The SIB memory forms fix rm and the SIB byte (30 R67, R68). -/
theorem bytesMemSib_masked (opc : Byte) (ha : sibBase a = true) :
    List.zipWith (· &&& ·) (bytesMemSib opc a x) [0xfa#8, 0xff#8, 0xc7#8, 0xff#8] =
      [0x48#8, opc, 0x04#8, 0x24#8] := by
  simp [bytesMemSib, rexByte_and_RB, modRM_indirect_and_sib, (sibBase_iff a).1 ha, byte_and_ff, sibNoIndex]

/-- The disp8 memory forms fix rm and the displacement (30 R67, R68). -/
theorem bytesMemDisp8_masked (opc : Byte) (ha : disp8Base a = true) :
    List.zipWith (· &&& ·) (bytesMemDisp8 opc a x) [0xfa#8, 0xff#8, 0xc7#8, 0xff#8] =
      [0x48#8, opc, 0x45#8, 0x00#8] := by
  simp [bytesMemDisp8, rexByte_and_RB, modRM_disp8_and_base, (disp8Base_iff a).1 ha, byte_and_ff, disp8Zero]

/-- F-ALU leaves both registers open (30 R69). -/
theorem bytesAlu_masked (op : AluOp) :
    List.zipWith (· &&& ·) (bytesAlu op a x) [0xfa#8, 0xff#8, 0xc0#8] = [0x48#8, aluOp op, 0xc0#8] := by
  simp [bytesAlu, rexByte_and_RB, modRM_direct_and_mod, byte_and_ff]

end

/-- What the rows of the set-on-conditions of a group fix: all but the register's number, twice (30 R70, R71). -/
def setMask (g : Group) : List Byte :=
  [0xff#8, 0xff#8, 0xf8#8, 0xff#8, 0xff#8, 0xff#8, 0xff#8] ++ (match g with
    | .g0 => []
    | .g1 => [0xff#8]) ++ [0xff#8, 0xff#8, 0xf8#8]

/-- The row of a set-on-condition in bytes (30 R70, R71). -/
theorem rowOf_setInstr (c : Cond) (g : Group) (r : Reg) :
    (encode (setInstr c g r)).length = (rowOf (setInstr c g r)).length ∧
    (setMask g).length = (rowOf (setInstr c g r)).length ∧ bigEndian (setMask g) = (rowOf (setInstr c g r)).mask ∧
    bigEndian (bytesSet c g (regOf g 0#3)) = (rowOf (setInstr c g r)).pattern := by
  cases c <;> cases g <;> exact ⟨rfl, rfl, rfl, rfl⟩

/-- Masked, the bytes of a set-on-condition are those for the group's register of number 0 (30 R70, R71). -/
theorem bytesSet_masked (c : Cond) (r : Reg) : List.zipWith (· &&& ·) (bytesSet c (regGroup r) r) (setMask (regGroup r)) =
    bytesSet c (regGroup r) (regOf (regGroup r) 0#3) := by
  obtain ⟨hg, hn⟩ := regOf_fields (regGroup r) 0#3
  have h0 : modRM modDirect 0#3 0#3 = 0xc0#8 := by decide
  simp only [bytesSet, bytesRI32, bytesSetPart, rexByte, hg, hn]
  cases regGroup r <;> simp [setMask, byte_and_ff, modRM_and_opcodeExtension, h0]

/-- The bytes of a well-formed instruction have the length, mask and match of its row (30 R83). -/
theorem admits_encode {i : Instr} (hwf : i.wellFormed = true) : (rowOf i).admits (encode i) = true := by
  induction i using Instr.byForm with
  | movImm32 r imm => exact admits_of_masked rfl rfl rfl rfl (bytesRI32_masked r imm)
  | movImm64 r imm => exact admits_of_masked rfl rfl rfl rfl (bytesOI64_masked r imm)
  | store a x => exact admits_of_masked rfl rfl rfl rfl (bytesMem_masked a x opcMovStore)
  | storeSib a x => exact admits_of_masked rfl rfl rfl rfl (bytesMemSib_masked a x opcMovStore hwf)
  | storeDisp8 a x => exact admits_of_masked rfl rfl rfl rfl (bytesMemDisp8_masked a x opcMovStore hwf)
  | load x a => exact admits_of_masked rfl rfl rfl rfl (bytesMem_masked a x opcMovLoad)
  | loadSib x a => exact admits_of_masked rfl rfl rfl rfl (bytesMemSib_masked a x opcMovLoad hwf)
  | loadDisp8 x a => exact admits_of_masked rfl rfl rfl rfl (bytesMemDisp8_masked a x opcMovLoad hwf)
  | add d s => exact admits_of_masked rfl rfl rfl rfl (bytesAlu_masked d s .add)
  | sub d s => exact admits_of_masked rfl rfl rfl rfl (bytesAlu_masked d s .sub)
  | cmp d s => exact admits_of_masked rfl rfl rfl rfl (bytesAlu_masked d s .cmp)
  | set c g r =>
    obtain rfl : regGroup r = g := by simpa using hwf
    obtain ⟨hl, hml, hm, hp⟩ := rowOf_setInstr c (regGroup r) r
    exact admits_of_masked hl hml hm hp (encode_setInstr c _ r ▸ bytesSet_masked c r)
  | ret => rfl

/-- Settles O27: the bytes agree with their row byte by byte (`admits_encode`), and rows of one length differ in a bit that
both fix (`row_unique`). -/
theorem encodingMatchesOneRow : Obligations.EncodingMatchesOneRow := by
  intro i j hwf
  exact ⟨admits_encode hwf, row_unique (admits_encode hwf)⟩

end Sys2Proof
end

section
/-! A SETcc part that stands alone at `rip`. -/

namespace Sys2Proof.Machine

open Safety

/-- A SETcc part is no instruction of the table: its first byte is 41 or 0F (30 R74). -/
theorem decode_bytesSetPart (p : SetPart) (bs : List Byte) : decode (bytesSetPart p ++ bs) = .error .firstByte := by
  obtain ⟨c, g, n⟩ := p
  cases g <;> cases c <;> rfl

theorem selectedByte_g1 : ∀ n, selectedByte .g1 n = (regOf .g1 n, 0) := by decide
theorem selectedByte_low : ∀ n : BitVec 3, n.toNat < 4 → selectedByte .g0 n = (regOf .g0 n, 0) := by decide
theorem selectedByte_high : ∀ n : BitVec 3, 4 ≤ n.toNat → selectedByte .g0 n = (highByteReg n, 8) := by decide

/-- A byte write puts the byte at the place of R201's table: those eight bits change, and nothing else does. -/
theorem writeByteReg_selectedByte (f : RegFile) (g : Group) (n : BitVec 3) (v : Byte) :
    ∃ w, writeByteReg f g n v = writeReg f (selectedByte g n).1 w ∧ w.extractLsb' (selectedByte g n).2 8 = v ∧
      ∀ k, k < (selectedByte g n).2 ∨ (selectedByte g n).2 + 8 ≤ k →
        w.getLsbD k = (readReg f (selectedByte g n).1).getLsbD k := by
  cases g with
  | g1 =>
    rw [writeByteReg_g1, selectedByte_g1]
    exact ⟨_, rfl, setLowByte_low _ _, fun k hk => setLowByte_other _ _ k (by omega)⟩
  | g0 =>
    obtain hn | hn := Nat.lt_or_ge n.toNat 4
    · rw [writeByteReg_low f n v hn, selectedByte_low n hn]
      exact ⟨_, rfl, setLowByte_low _ _, fun k hk => setLowByte_other _ _ k (by omega)⟩
    · rw [writeByteReg_high f n v hn, selectedByte_high n hn]
      exact ⟨_, rfl, setHighByte_high _ _, fun k hk => setHighByte_other _ _ k (by omega)⟩

theorem setPartLength_eq (g : Group) : setPartLength g = 3 + groupBit g := by cases g <;> rfl

/-- Settles O38: the bytes decode to no instruction, so the step runs the SETcc part, whose one register write is at the
byte of R201's table. -/
theorem loneSetPartRuns : Obligations.LoneSetPartRuns := by
  intro s p bs hs hbs
  obtain ⟨w, hw, hbyte, hrest⟩ :=
    writeByteReg_selectedByte s.regs p.group p.number (condByte (condHolds p.cond s.flags))
  have hstep : step s = .next (runSetPart p s) :=
    step_of_setPart hs (hbs ▸ decode_bytesSetPart p bs) (hbs ▸ decodeSetPart_bytesSetPart p bs)
  refine ⟨runSetPart p s, hstep, rfl, rfl, ⟨⟨rfl, rfl, rfl, rfl, rfl, rfl⟩, rfl, rfl⟩, by simp [setPartLength_eq], ?_, ?_, ?_⟩
  · rw [runSetPart_regs, hw, readReg_writeReg_same, hbyte]
    rfl
  · intro k hk
    rw [runSetPart_regs, hw, readReg_writeReg_same, hrest k hk]
  · intro r hr
    rw [runSetPart_regs, hw, readReg_writeReg_other _ _ _ _ hr]

end Sys2Proof.Machine
end

section
/-! The byte view of a bit sequence, and the immediate coders through it. -/

namespace Sys2Proof.Bits

/-- A whole number of bytes is viewed as its groups of eight bits (R113). -/
theorem bytes_of_len {v : BitVector} {m : Nat} (h : len v = m * 8) :
    bytes v = .ok ((groups 8 m v).map fun g => BitVec.ofNat 8 (uint g)) := by
  simp [bytes, h]

/-- Only a whole number of bytes has a byte view, of an eighth of its length (R113). -/
theorem len_of_bytes {v : BitVector} {bs : List Byte} (h : bytes v = .ok bs) : len v = bs.length * 8 := by
  unfold bytes at h
  split at h
  · rw [← Except.ok.inj h, List.length_map, length_groups]
    omega
  · cases h

/-- The byte view of a byte constant (R113). -/
theorem bytes_byteBits (b : Byte) : bytes (byteBits b) = .ok [b] := by
  have hlen : len (byteBits b) = 1 * 8 := len_pattern 8 _
  have htake : (byteBits b).take 8 = byteBits b := List.take_of_length_le (Nat.le_of_eq hlen)
  rw [bytes_of_len hlen, groups, htake]
  have hmod : b.toNat % 2 ^ 8 = b.toNat := Nat.mod_eq_of_lt b.isLt
  rw [groups, byteBits, List.map_cons, uint_pattern, hmod, BitVec.ofNat_toNat, BitVec.setWidth_eq]
  rfl

/-- The byte view of a concatenation (R110, R113). -/
theorem bytes_append {v w : BitVector} {bs cs : List Byte} (hv : bytes v = .ok bs) (hw : bytes w = .ok cs) :
    bytes (v ++ w) = .ok (bs ++ cs) := by
  have hlv := len_of_bytes hv
  have hlw := len_of_bytes hw
  have hl : len (v ++ w) = (bs.length + cs.length) * 8 := by rw [len_append, hlv, hlw, Nat.add_mul]
  rw [bytes_of_len hlv] at hv
  rw [bytes_of_len hlw] at hw
  rw [bytes_of_len hl, groups_append 8 _ _ v w hlv, List.map_append, Except.ok.inj hv, Except.ok.inj hw]

/-- The length in bytes is the byte view's (R100). -/
theorem byteLength_of_bytes {v : BitVector} {bs : List Byte} (h : bytes v = .ok bs) : byteLength v = .ok bs.length := by
  simp [byteLength, len_of_bytes h]

/-- Ones before a complement: the two's-complement pattern (R91). -/
theorem uint_ones_not (k : Nat) (u : BitVector) : uint (ones k ++ u.map not) + uint u + 1 = 2 ^ (k + len u) := by
  rw [uint_append, len_map_not, Nat.add_assoc, Nat.add_assoc, ← Nat.add_assoc _ (uint u), uint_map_not, ← Nat.succ_mul,
    Nat.succ_eq_add_one, uint_ones, Nat.pow_add]

/-- Every integer of the signed or the unsigned range of `n` bits is coded in `n` bits, as its value modulo 2^n
(R90, R91). -/
theorem fromIntegerLen_ok {v : Int} {n : Nat} (hn : 1 ≤ n) (hlo : -2 ^ (n - 1) ≤ v) (hhi : v < 2 ^ n) :
    ∃ b, fromIntegerLen v n = .ok b ∧ len b = n ∧ (uint b : Int) = v % 2 ^ n := by
  obtain hv | hv := lt_or_ge v 0
  · obtain ⟨u, rfl⟩ : ∃ u : Nat, v = -u - 1 := ⟨(-v - 1).toNat, by omega⟩
    have hu : u < 2 ^ (n - 1) := by
      zify
      omega
    have hlen : len (natural u) ≤ n :=
      (len_natural_le hn).2 (hu.trans_le (Nat.pow_le_pow_right (by decide) (Nat.sub_le n 1)))
    have hfits : negativeFits (-u - 1) n = true := by
      simp only [negativeFits, Config.literalNegativeBand, Bool.false_eq_true, if_false, Bool.and_eq_true, bne_iff_ne,
        decide_eq_true_eq]
      exact ⟨Nat.ne_of_gt hn, by exact_mod_cast hlo⟩
    have hrepr : (-(-(u : Int) - 1) - 1).toNat = u := by omega
    refine ⟨ones (n - len (natural u)) ++ (natural u).map not, ?_, ?_, ?_⟩
    · rw [fromIntegerLen, if_neg (not_le.2 hv), if_pos hfits, hrepr]
      simp only [len_map_not]
    · simp only [len_append, len_ones, len_map_not]
      omega
    · have hsum := uint_ones_not (n - len (natural u)) (natural u)
      rw [Nat.sub_add_cancel hlen, uint_natural] at hsum
      zify at hsum
      have hlow : (u : Int) < 2 ^ n := by exact_mod_cast hu.trans_le (Nat.pow_le_pow_right (by decide) (Nat.sub_le n 1))
      rw [← Int.add_emod_right, Int.emod_eq_of_lt (by omega) (by omega)]
      omega
  · obtain ⟨u, rfl⟩ := Int.eq_ofNat_of_zero_le hv
    have hu : u < 2 ^ n := by exact_mod_cast hhi
    have hlen : len (natural u) ≤ n := (len_natural_le hn).2 hu
    refine ⟨zeros (n - len (natural u)) ++ natural u, ?_, ?_, ?_⟩
    · rw [fromIntegerLen, if_pos hv, Int.toNat_natCast, if_neg (not_lt.2 hlen)]
    · simp only [len_append, len_zeros]
      omega
    · rw [uint_append, uint_zeros, uint_natural, Nat.zero_mul, Nat.zero_add, Int.emod_eq_of_lt hv hhi]

/-- The groups of a vector, last first, are the bytes of its unsigned reading, least significant first (20 R43). -/
theorem groups_reverse_bytes (m : Nat) (v : BitVector) (h : len v = m * 8) :
    (groups 8 m v).reverse.map (fun g => BitVec.ofNat 8 (uint g)) =
      (List.range m).map fun k => BitVec.ofNat 8 (uint v / 256 ^ k) := by
  induction m generalizing v with
  | zero => rfl
  | succ m ih =>
    have hd : len (v.drop 8) = m * 8 := by
      simp only [len, List.length_drop] at h ⊢
      omega
    have hv : uint v = uint (v.take 8) * 256 ^ m + uint (v.drop 8) := by
      conv_lhs => rw [← List.take_append_drop 8 v]
      rw [uint_append, hd, Nat.mul_comm m 8, Nat.pow_mul]
    have hlow : uint (v.drop 8) < 256 ^ m := by
      have := uint_lt (v.drop 8)
      rwa [hd, Nat.mul_comm m 8, Nat.pow_mul] at this
    rw [groups, List.reverse_cons, List.map_append, ih _ hd, List.range_succ, List.map_append, hv]
    congr 1
    · refine List.map_congr_left fun k hk => ?_
      obtain ⟨j, rfl⟩ := Nat.exists_eq_add_of_lt (List.mem_range.1 hk)
      have hsplit : uint (v.take 8) * 256 ^ (k + j + 1) + uint (v.drop 8) =
          256 ^ k * (256 * (uint (v.take 8) * 256 ^ j)) + uint (v.drop 8) := by ring
      refine BitVec.eq_of_toNat_eq ?_
      rw [hsplit, Nat.mul_add_div (Nat.pow_pos (by decide)), BitVec.toNat_ofNat, BitVec.toNat_ofNat]
      exact (Nat.mul_add_mod 256 _ _).symm
    · rw [List.map_singleton, List.map_singleton, Nat.mul_comm, Nat.mul_add_div (Nat.pow_pos (by decide)), Nat.div_eq_of_lt hlow, Nat.add_zero]

/-- The byte view of a byte-reversed vector (R98, R113). -/
theorem reversedBytes_ok {v : BitVector} {m : Nat} (h : len v = m * 8) : ∃ w, reversedBytes v = .ok w ∧
    bytes w = .ok ((List.range m).map fun k => BitVec.ofNat 8 (uint v / 256 ^ k)) := by
  have hg : ∀ g ∈ (groups 8 m v).reverse, len g = 8 := fun g hg => len_of_mem_groups 8 m v h g (List.mem_reverse.1 hg)
  have hl : (groups 8 m v).reverse.length = m := by simp
  refine ⟨join (groups 8 m v).reverse, by simp [reversedBytes, h], ?_⟩
  have hj := groups_join 8 _ hg
  rw [bytes_of_len (len_join 8 _ hg), hj, groups_reverse_bytes m v h]

end Sys2Proof.Bits
end

section
/-! The immediate coders. -/

namespace Sys2Proof.Policy

open Bits

/-- A value in the signed or the unsigned range of `m` bytes is coded as its pattern, least significant byte first
(R126; 20 R43). -/
theorem immediate_ok {v : Int} {m : Nat} (hm : 1 ≤ m) (hlo : -2 ^ (8 * m - 1) ≤ v) (hhi : v < 2 ^ (8 * m)) :
    ∃ im, immediate v (8 * m) = .ok im ∧
      bytes im = .ok ((List.range m).map fun k => BitVec.ofNat 8 ((v % 2 ^ (8 * m)).toNat / 256 ^ k)) := by
  obtain ⟨b, hb, hlen, huint⟩ := fromIntegerLen_ok (by omega) hlo hhi
  obtain ⟨im, him, hbytes⟩ := reversedBytes_ok (hlen.trans (Nat.mul_comm 8 m))
  refine ⟨im, by simp [immediate, hb, him], ?_⟩
  rw [hbytes, ← huint, Int.toNat_natCast]

/-- Two values of one residue are coded alike (R126). -/
theorem immediate_congr {v w : Int} {n : Nat} (hn : 1 ≤ n) (hv : -2 ^ (n - 1) ≤ v ∧ v < 2 ^ n)
    (hw : -2 ^ (n - 1) ≤ w ∧ w < 2 ^ n) (h : v % 2 ^ n = w % 2 ^ n) : immediate v n = immediate w n := by
  obtain ⟨b, hb, hbl, hbu⟩ := fromIntegerLen_ok hn hv.1 hv.2
  obtain ⟨c, hc, hcl, hcu⟩ := fromIntegerLen_ok hn hw.1 hw.2
  have hbc : b = c := eq_of_uint_eq (hbl.trans hcl.symm) (by exact_mod_cast hbu.trans (h.trans hcu.symm))
  rw [immediate, immediate, hb, hc, hbc]

/-- Settles O14: both coders are `immediate` at 4 and at 8 bytes. -/
theorem immediatesLittleEndian : Obligations.ImmediatesLittleEndian :=
  ⟨fun _ hlo hhi => immediate_ok (m := 4) (by decide) hlo hhi, fun _ hlo hhi => immediate_ok (m := 8) (by decide) hlo hhi⟩

/-- Byte `k` of a value's pattern (30 R62, R63). -/
theorem byteOf_ofInt (n : Nat) (v : Int) (k : Nat) :
    byteOf (BitVec.ofInt n v) k = BitVec.ofNat 8 ((v % 2 ^ n).toNat / 256 ^ k) := by
  refine BitVec.eq_of_toNat_eq ?_
  rw [byteOf, BitVec.extractLsb'_toNat, BitVec.toNat_ofInt, BitVec.toNat_ofNat, Nat.shiftRight_eq_div_pow, Nat.pow_mul]
  rfl

end Sys2Proof.Policy
end

section
/-! The policies through the byte view: REX, ModRM, the addressing tails and the two immediates. -/

namespace Sys2Proof.Policy

open Bits

section
variable (d a x : Reg)

theorem bytes_rexFor : bytes (rexFor a x) = .ok [rexByte a x] := bytes_byteBits _

/-- ModRM's eight bits are its three fields side by side (30 R59). -/
theorem byteBits_modRM : ∀ (m : BitVec 2) (reg rm : BitVec 3),
    byteBits (modRM m reg rm) = modBits m ++ pattern 3 reg.toNat ++ pattern 3 rm.toNat := by decide

/-- A register's bits are its field's (41 R120). -/
theorem regbits_eq : regbits a = pattern 3 (regField a).toNat := by cases a <;> rfl

theorem bytes_modRM (m : BitVec 2) (reg : BitVec 3) :
    bytes (modBits m ++ pattern 3 reg.toNat ++ regbits a) = .ok [modRM m reg (regField a)] := by
  rw [regbits_eq, ← byteBits_modRM, bytes_byteBits]

/-- A register operand with another register in ModRM.reg (41 R132). -/
theorem bytes_regDirect : bytes (regDirect (regbits x) d) = .ok [modRM modDirect (regField x) (regField d)] := by
  rw [regbits_eq]
  exact bytes_modRM d modDirect (regField x)

/-- A register operand with the opcode extension 0 (41 R132). -/
theorem bytes_regDirect_zero : bytes (regDirect [false, false, false] d) = .ok [modRM modDirect 0 (regField d)] :=
  bytes_modRM d modDirect 0

variable {a}

/-- The plain memory operand (41 R128, R131). -/
theorem bytes_memOperand_plain (h4 : regNumber a ≠ 4) (h5 : regNumber a ≠ 5) :
    bytes (memOperand (regbits x) a) = .ok [modRM modIndirect (regField x) (regField a)] := by
  rw [memOperand, addrMode, if_neg h5, if_neg h4, regbits_eq x]
  exact bytes_append (bytes_modRM a modIndirect (regField x)) rfl

/-- The memory operand with a SIB byte (41 R128, R131). -/
theorem bytes_memOperand_sib (h4 : regNumber a = 4) :
    bytes (memOperand (regbits x) a) = .ok [modRM modIndirect (regField x) (regField a), sibNoIndex] := by
  rw [memOperand, addrMode, if_neg (by omega), if_pos h4, regbits_eq x]
  exact bytes_append (bytes_modRM a modIndirect (regField x)) (bytes_byteBits sibNoIndex)

/-- The memory operand with a displacement (41 R128, R131). -/
theorem bytes_memOperand_disp8 (h5 : regNumber a = 5) :
    bytes (memOperand (regbits x) a) = .ok [modRM modDisp8 (regField x) (regField a), disp8Zero] := by
  rw [memOperand, addrMode, if_pos h5, regbits_eq x]
  exact bytes_append (bytes_modRM a modDisp8 (regField x)) (bytes_byteBits disp8Zero)

end

/-- The value takes the compact form: it is a signed 32-bit number (41 R125). -/
abbrev CompactValue (v : Int) : Prop := -2 ^ 31 ≤ v ∧ v ≤ 2 ^ 31 - 1

/-- The block can encode the value (41 R123). -/
abbrev EncodableValue (v : Int) : Prop := -2 ^ 63 ≤ v ∧ v ≤ 2 ^ 64 - 1

section
variable {v : Int}

/-- A compact value has a size class of at most 4 bytes (41 R123, R125). -/
theorem immSize_of_compact (h : CompactValue v) : ∃ s, immSize v = .ok s ∧ compactSize s = true := by
  unfold immSize
  split_ifs
  · exact ⟨0, rfl, rfl⟩
  · exact ⟨1, rfl, rfl⟩
  · exact ⟨2, rfl, rfl⟩
  · exact ⟨4, rfl, rfl⟩

/-- Every other encodable value has the class of 8 bytes (41 R123). -/
theorem immSize_of_full (hc : ¬CompactValue v) (he : EncodableValue v) : immSize v = .ok 8 := by
  rw [immSize, if_neg (by omega), if_neg (by omega), if_neg (by omega), if_neg (by omega), if_pos he]

/-- A value outside the envelope has none (41 R123). -/
theorem immSize_of_not_encodable (h : ¬EncodableValue v) : immSize v = .error .unsupportedImmediateSize := by
  rw [immSize, if_neg (by omega), if_neg (by omega), if_neg (by omega), if_neg (by omega), if_neg (by omega)]

/-- The 4-byte immediate (30 R62). -/
theorem imm32_ok (h : CompactValue v) : ∃ im, imm32 v = .ok im ∧ bytes im = .ok
    [byteOf (BitVec.ofInt 32 v) 0, byteOf (BitVec.ofInt 32 v) 1, byteOf (BitVec.ofInt 32 v) 2,
      byteOf (BitVec.ofInt 32 v) 3] := by
  simp only [byteOf_ofInt]
  exact immediate_ok (m := 4) (by decide) h.1 (by omega)

/-- The 8-byte immediate (30 R63). -/
theorem imm64_ok (h : EncodableValue v) :
    ∃ im, imm64 v = .ok im ∧ bytes im = .ok (Machine.wordBytes (BitVec.ofInt 64 v)) := by
  simp only [Machine.wordBytes, byteOf_ofInt]
  exact immediate_ok (m := 8) (by decide) h.1 (by omega)

end

end Sys2Proof.Policy
end

section
/-! The block's output is the format diagram of the descriptor's row. -/

namespace Sys2Proof.Block

open Bits Policy

/-- The full-form opcode that the block computes from a hex text is the diagram's `10111ddd` (30 R64, R66). -/
theorem fromHexWithOffset_fullOpcode (r : Reg) :
    fromHexWithOffset opcMovOI64Base (regNumber r) = .ok (byteBits (fullOpcode (regField r))) := by
  cases r <;> rfl

/-- Settles O11: the opcode is the byte `fullOpcode`, whose bits are read off register by register. -/
theorem fullFormOpcode : Obligations.FullFormOpcode := by
  intro r
  refine ⟨_, fromHexWithOffset_fullOpcode r, ?_⟩
  cases r <;> decide

/-- The output is defined, and is the bytes of `bs` (30 R113). -/
def Emits (d : Descriptor) (bs : List Byte) : Prop := ∃ out, encode d = .ok out ∧ bytes out = .ok bs

/-- The compact move (42 R145, 30 R65). -/
theorem emits_movImm_compact (d : Reg) {v : Int} (h : CompactValue v) :
    Emits (.movImm d v) (bytesRI32 d (BitVec.ofInt 32 v)) := by
  obtain ⟨s, hs, hcompact⟩ := immSize_of_compact h
  obtain ⟨im, him, hbytes⟩ := imm32_ok h
  refine ⟨rexFor d .rax ++ byteBits opcMovRI32 ++ regDirect [false, false, false] d ++ im,
    by simp [encode, encodeMovImm, hs, hcompact, him], ?_⟩
  exact bytes_append (bytes_append (bytes_append (bytes_rexFor d .rax) (bytes_byteBits _)) (bytes_regDirect_zero d)) hbytes

/-- The full move, computed (42 R145). -/
theorem encode_movImm_full (d : Reg) {v : Int} (hc : ¬CompactValue v) (he : EncodableValue v) :
    encode (.movImm d v) =
      (imm64 v).map fun im => rexFor d .rax ++ byteBits (fullOpcode (regField d)) ++ im := by
  simp only [encode, encodeMovImm, immSize_of_full hc he, fromHexWithOffset_fullOpcode]
  cases imm64 v <;> rfl

/-- The full move (42 R145, 30 R66). -/
theorem emits_movImm_full (d : Reg) {v : Int} (hc : ¬CompactValue v) (he : EncodableValue v) :
    Emits (.movImm d v) (bytesOI64 d (BitVec.ofInt 64 v)) := by
  obtain ⟨im, him, hbytes⟩ := imm64_ok he
  refine ⟨_, by rw [encode_movImm_full d hc he, him]; rfl, ?_⟩
  exact bytes_append (bytes_append (bytes_rexFor d .rax) (bytes_byteBits _)) hbytes

/-- A value outside the envelope is refused (42 R145). -/
theorem encode_movImm_error (d : Reg) {v : Int} (h : ¬EncodableValue v) :
    encode (.movImm d v) = .error .unsupportedImmediateSize := by
  simp [encode, encodeMovImm, immSize_of_not_encodable h]

/-- A store's output, by its memory operand (42 R149). -/
theorem emits_movStore {a x : Reg} {bs : List Byte} (h : bytes (memOperand (regbits x) a) = .ok bs) :
    Emits (.movStore a x) ([rexByte a x, opcMovStore] ++ bs) :=
  ⟨_, rfl, bytes_append (bytes_append (bytes_rexFor a x) (bytes_byteBits _)) h⟩

/-- A load's output, by its memory operand (42 R151). -/
theorem emits_movLoad {a x : Reg} {bs : List Byte} (h : bytes (memOperand (regbits x) a) = .ok bs) :
    Emits (.movLoad x a) ([rexByte a x, opcMovLoad] ++ bs) :=
  ⟨_, rfl, bytes_append (bytes_append (bytes_rexFor a x) (bytes_byteBits _)) h⟩

/-- A register-register output (43 R165). -/
theorem emits_alu (op : AluOp) (d s : Reg) : Emits (.alu op d s) (bytesAlu op d s) :=
  ⟨_, rfl, bytes_append (bytes_append (bytes_rexFor d s) (bytes_byteBits _)) (bytes_regDirect d s)⟩

/-- A set-on-condition's output (44 R175, 30 R70, R71). -/
theorem emits_setCC (c : Cond) (r : Reg) : Emits (.setCC c r) (bytesSet c (regGroup r) r) := by
  obtain ⟨z, hz, hzb⟩ := emits_movImm_compact r (v := 0) (by decide)
  have hz' : encodeMovImm r 0 = .ok z := hz
  have hout : ∀ {pre : BitVector} {bs : List Byte}, bytes pre = .ok bs →
      bytes (z ++ pre ++ byteBits (ccOp c).1 ++ byteBits (ccOp c).2 ++ regDirect [false, false, false] r) =
        .ok (bytesRI32 r 0 ++ (bs ++ [(ccOp c).1, (ccOp c).2, modRM modDirect 0 (regField r)])) := by
    intro pre bs hpre
    simpa using bytes_append (bytes_append (bytes_append (bytes_append hzb hpre) (bytes_byteBits (ccOp c).1))
      (bytes_byteBits (ccOp c).2)) (bytes_regDirect_zero r)
  simp only [Emits, encode, encodeSetCC, setEncode, hz', bytesSet, bytesSetPart]
  cases regGroup r with
  | g0 => exact ⟨_, rfl, hout rfl⟩
  | g1 => exact ⟨_, rfl, hout (bytes_byteBits rexBOnly)⟩

@[simp] theorem emitted_setInstr (c : Cond) (g : Group) (r : Reg) : (setInstr c g r).emitted = (regGroup r == g) := by
  cases c <;> cases g <;> exact Bool.and_true _

/-- A full-form value's pattern lies outside the compact form's non-negative range (41 R123). -/
theorem emitted_movImm64 (d : Reg) {v : Int} (hc : ¬CompactValue v) (he : EncodableValue v) :
    (Instr.movImm64 d (BitVec.ofInt 64 v)).emitted = true := by
  have hpattern : 2 ^ 31 ≤ (BitVec.ofInt 64 v).toNat := by
    rw [BitVec.toNat_ofInt]
    omega
  exact decide_eq_true hpattern

/-- What the block computes for a descriptor with a row is the row's format diagram, of an instruction it can emit (30 R65
to R72). -/
theorem emits_of_formOf {d : Descriptor} {i : Instr} (h : formOf d = .ok i) :
    Emits d (Sys2Proof.encode i) ∧ i.emitted = true := by
  cases d with
  | movImm d v =>
    rw [formOf] at h
    split_ifs at h with hc he <;> obtain rfl := Except.ok.inj h
    · exact ⟨emits_movImm_compact d hc, rfl⟩
    · exact ⟨emits_movImm_full d hc he, emitted_movImm64 d hc he⟩
  | movStore a x =>
    rw [formOf] at h
    split_ifs at h with h4 h5 <;> obtain rfl := Except.ok.inj h
    · exact ⟨emits_movStore (bytes_memOperand_sib x h4), by simp [Instr.emitted, Instr.wellFormed, sibBase, h4]⟩
    · exact ⟨emits_movStore (bytes_memOperand_disp8 x h5), by simp [Instr.emitted, Instr.wellFormed, disp8Base, h5]⟩
    · exact ⟨emits_movStore (bytes_memOperand_plain x h4 h5), by
        simp [Instr.emitted, Instr.wellFormed, plainBase, h4, h5]⟩
  | movLoad x a =>
    rw [formOf] at h
    split_ifs at h with h4 h5 <;> obtain rfl := Except.ok.inj h
    · exact ⟨emits_movLoad (bytes_memOperand_sib x h4), by simp [Instr.emitted, Instr.wellFormed, sibBase, h4]⟩
    · exact ⟨emits_movLoad (bytes_memOperand_disp8 x h5), by simp [Instr.emitted, Instr.wellFormed, disp8Base, h5]⟩
    · exact ⟨emits_movLoad (bytes_memOperand_plain x h4 h5), by
        simp [Instr.emitted, Instr.wellFormed, plainBase, h4, h5]⟩
  | alu op d s =>
    cases op <;> (obtain rfl := Except.ok.inj h; exact ⟨emits_alu _ d s, rfl⟩)
  | setCC c r =>
    obtain rfl := Except.ok.inj h
    exact ⟨encode_setInstr c _ r ▸ emits_setCC c r, by simp⟩
  | ret =>
    obtain rfl := Except.ok.inj h
    exact ⟨⟨_, rfl, bytes_byteBits opcRet⟩, rfl⟩

/-- The block fails where a descriptor has no row, and with its error (41 R123). -/
theorem encode_of_formOf_error {d : Descriptor} {e : EncError} (h : formOf d = .error e) : encode d = .error e := by
  cases d with
  | movImm d v =>
    rw [formOf] at h
    split_ifs at h with hc he
    rw [← Except.error.inj h]
    exact encode_movImm_error d he
  | movStore a x | movLoad x a =>
    rw [formOf] at h
    split_ifs at h
  | alu op d s => cases op <;> cases h
  | setCC | ret => cases h

/-- Settles O23: a descriptor with a row emits its diagram (`emits_of_formOf`), one without fails with the row's error. -/
theorem blockEmitsItsForm : Obligations.BlockEmitsItsForm := by
  intro d
  cases hform : formOf d with
  | ok i =>
    obtain ⟨⟨out, hout, hbytes⟩, hemitted⟩ := emits_of_formOf hform
    refine ⟨fun e => ⟨fun h => ?_, fun h => ?_⟩, fun out' hout' => ⟨i, rfl, hemitted, ?_⟩⟩
    · cases hout.symm.trans h
    · cases h
    · rw [← Except.ok.inj (hout.symm.trans hout'), hbytes]
  | error e =>
    rw [encode_of_formOf_error hform]
    exact ⟨fun _ => ⟨fun h => (Except.error.inj h) ▸ rfl, fun h => (Except.error.inj h) ▸ rfl⟩, fun _ h => by cases h⟩

/-- Settles O22: the output is the bytes of its form, and each form's length is in the table. -/
theorem outputLengths : Obligations.OutputLengths := by
  intro d out hout
  obtain ⟨i, hform, -, hbytes⟩ := (blockEmitsItsForm d).2 out hout
  rw [byteLength_of_bytes hbytes, length_encode]
  refine congrArg Except.ok ?_
  cases d with
  | movImm d v =>
    rw [formOf] at hform
    split_ifs at hform with hc <;> obtain rfl := Except.ok.inj hform
    · exact (if_pos hc).symm
    · exact (if_neg hc).symm
  | movStore a x | movLoad x a =>
    rw [formOf] at hform
    split_ifs at hform with h4 h5 <;> obtain rfl := Except.ok.inj hform
    · simp [formLength, h4]
    · simp [formLength, h5]
    · simp [formLength, h4, h5]
  | alu op d s => cases op <;> obtain rfl := Except.ok.inj hform <;> rfl
  | setCC c r =>
    obtain rfl := Except.ok.inj hform
    rw [← length_encode, encode_setInstr, length_bytesSet]
  | ret =>
    obtain rfl := Except.ok.inj hform
    rfl

end Sys2Proof.Block
end

section
/-! From an output back to its descriptor. -/

namespace Sys2Proof.Block

open Bits Policy

@[simp] theorem descriptorOf_setInstr (c : Cond) (g : Group) (r : Reg) : descriptorOf (setInstr c g r) = .setCC c r := by
  cases c <;> cases g <;> rfl

/-- At the end of the bytes nothing completes a compound. -/
theorem startsCompound_nil (i : Instr) : startsCompound i [] = false := by
  cases i with
  | movImm32 => exact Bool.and_false _
  | _ => rfl

/-- An instruction that the block emits is well formed. -/
theorem wellFormed_of_emitted {i : Instr} (h : i.emitted = true) : i.wellFormed = true :=
  (Bool.and_eq_true_iff.1 h).1

/-- A compact value is its pattern's signed reading (30 R73). -/
theorem toInt_ofInt_compact {v : Int} (h : CompactValue v) : (BitVec.ofInt 32 v).toInt = v := by
  rw [BitVec.toInt_ofInt, Int.bmod_eq_of_le] <;> omega

/-- The descriptor of a row is the one that has the row, but for a negative full-form value (30 R73; 93 I3). -/
theorem descriptorOf_of_formOf {d : Descriptor} {i : Instr} (h : formOf d = .ok i) :
    descriptorOf i = d ∨
      ∃ dst v, d = .movImm dst v ∧ -2 ^ 63 ≤ v ∧ v < -2 ^ 31 ∧ descriptorOf i = .movImm dst (v + 2 ^ 64) := by
  cases d with
  | movImm d v =>
    rw [formOf] at h
    split_ifs at h with hc he <;> obtain rfl := Except.ok.inj h
    · exact .inl (congrArg (Descriptor.movImm d) (toInt_ofInt_compact hc))
    · have hread : ((BitVec.ofInt 64 v).toNat : Int) = v % 2 ^ 64 := by
        rw [BitVec.toNat_ofInt]
        omega
      obtain hv | hv := lt_or_ge v 0
      · refine .inr ⟨d, v, rfl, he.1, by omega, congrArg (Descriptor.movImm d) ?_⟩
        omega
      · refine .inl (congrArg (Descriptor.movImm d) ?_)
        omega
  | movStore a x | movLoad x a =>
    rw [formOf] at h
    split_ifs at h <;> obtain rfl := Except.ok.inj h <;> exact .inl rfl
  | alu op d s => cases op <;> obtain rfl := Except.ok.inj h <;> exact .inl rfl
  | setCC c r =>
    obtain rfl := Except.ok.inj h
    exact .inl (descriptorOf_setInstr c _ r)
  | ret =>
    obtain rfl := Except.ok.inj h
    exact .inl rfl

/-- Settles O24: the output is the bytes of the descriptor's form (`blockEmitsItsForm`), which decode to it
(`decodeOfEncode`), and the form names the descriptor (`descriptorOf_of_formOf`). -/
theorem outputRecoversDescriptor : Obligations.OutputRecoversDescriptor := by
  intro d out hout
  obtain ⟨i, hform, hemitted, hbytes⟩ := (blockEmitsItsForm d).2 out hout
  have hdecode := decodeOfEncode i [] (wellFormed_of_emitted hemitted) (startsCompound_nil i)
  rw [List.append_nil] at hdecode
  exact ⟨Sys2Proof.encode i, i, hbytes, hdecode, descriptorOf_of_formOf hform⟩

end Sys2Proof.Block
end

section
/-! The two values of one full-form pattern. -/

namespace Sys2Proof.Block

open Bits Policy

/-- Decimal digits hold no sign. -/
theorem minus_not_mem_decimalDigits (fuel n : Nat) : '-' ∉ decimalDigits fuel n := by
  have hdigit : ∀ k < 10, '-' ≠ "0123456789".toList.getD k '0' := by decide
  induction fuel generalizing n with
  | zero => exact List.not_mem_nil
  | succ fuel ih =>
    have h := hdigit (n % 10) (Nat.mod_lt n (by decide))
    rw [decimalDigits]
    split
    · simpa using h
    · simpa using ⟨h, ih (n / 10)⟩

/-- The numerals of a negative and a non-negative value differ by the sign (42 R148). -/
theorem dec_ne_of_sign {v w : Int} (hv : 0 ≤ v) (hw : w < 0) : dec v ≠ dec w := by
  intro h
  have hminus : '-' ∈ dec v := by
    rw [h, dec, if_pos hw]
    exact List.mem_cons_self
  rw [dec, if_neg (not_lt.2 hv), natText, List.mem_reverse] at hminus
  exact minus_not_mem_decimalDigits _ _ hminus

/-- The rendered moves of a negative and a non-negative value differ (42 R148). -/
theorem render_movImm_ne (d : Reg) {v w : Int} (hv : 0 ≤ v) (hw : w < 0) :
    render (.movImm d v) ≠ render (.movImm d w) :=
  fun h => dec_ne_of_sign hv hw (List.append_cancel_left h)

/-- Settles O25: in the band both values take the full form with one residue; above it the lower value is compact, and its
output is 7 bytes and not 10. -/
theorem equalBytesBand : Obligations.EqualBytesBand := by
  intro d v hlo hhi
  have hfull : ¬CompactValue v := by omega
  refine ⟨⟨fun heq => ?_, fun hband => ?_⟩, render_movImm_ne d (by omega) (by omega)⟩
  · by_contra hv
    have hcompact : CompactValue (v - 2 ^ 64) := by omega
    obtain ⟨out, hout, -⟩ := emits_movImm_compact d hcompact
    have h10 := outputLengths _ _ (heq.trans hout)
    have h7 := outputLengths _ _ hout
    simp only [if_neg hfull, if_pos hcompact] at h10 h7
    exact absurd (Except.ok.inj (h10.symm.trans h7)) (by decide)
  · rw [encode_movImm_full d hfull (by omega), encode_movImm_full d (by omega) (by omega)]
    have himm : imm64 v = imm64 (v - 2 ^ 64) :=
      immediate_congr (by decide) (by omega) (by omega) (Int.sub_emod_right v (2 ^ 64)).symm
    rw [himm]

end Sys2Proof.Block
end

section
/-! Words of the format diagrams, written out. -/

namespace Sys2Proof

/-- Settles O31: seven concrete words, each read by the decoder. -/
theorem diagramWordsDecode : Obligations.DiagramWordsDecode := by
  refine ⟨?_, ?_, ?_, ?_, ?_, ?_, ?_⟩ <;> decide

end Sys2Proof
end

section
/-! The integer codings: unsigned, two's complement and out of range. -/

namespace Sys2Proof.Bits

/-- The head is 1 exactly where the unsigned reading reaches the head's weight (R101). -/
theorem head?_eq_true_iff {v : BitVector} {n : Nat} (h : len v = n + 1) : v.head? = some true ↔ 2 ^ n ≤ uint v := by
  cases v with
  | nil => simp at h
  | cons b v =>
    obtain rfl : len v = n := by simpa using h
    have hlt := uint_lt v
    cases b with
    | false => simpa [uint] using hlt
    | true => simp [uint]

/-- The signed reading is the unsigned one, taken into the signed range of the length (R101, R112). -/
theorem sint_eq_bmod (v : BitVector) : sint v = (uint v : Int).bmod (2 ^ len v) := by
  cases v with
  | nil => rfl
  | cons b v =>
    have hlt : (uint v : Int) < 2 ^ len v := by exact_mod_cast uint_lt v
    have hmod : (sint (b :: v)).bmod (2 ^ len (b :: v)) = (uint (b :: v) : Int).bmod (2 ^ len (b :: v)) := by
      cases b with
      | false => rfl
      | true => exact Int.sub_bmod_right _ _
    rw [← hmod, Int.bmod_eq_of_le_mul_two]
    all_goals cases b <;> simp [sint, uint, pow_succ] <;> omega

/-- A negative value fits `n` bits exactly from -2^(n-1) on, and never at length 0 (R91; 90 C1). -/
theorem negativeFits_iff {v : Int} {n : Nat} : negativeFits v n = true ↔ n ≠ 0 ∧ -2 ^ (n - 1) ≤ v := by
  simp [negativeFits, Config.literalNegativeBand]

/-- An integer outside the signed and the unsigned range of `n` bits is refused, and every integer at length 0
(R90, R91; 90 C1). -/
theorem fromIntegerLen_outOfRange {v : Int} {n : Nat} (h : n = 0 ∨ 2 ^ n ≤ v ∨ v < -2 ^ (n - 1)) :
    fromIntegerLen v n = .error .outOfRange := by
  obtain hv | hv := lt_or_ge v 0
  · have hpos : (0 : Int) < 2 ^ n := by positivity
    have hfits : ¬negativeFits v n = true := by
      rw [negativeFits_iff]
      omega
    rw [fromIntegerLen, if_neg (not_le.2 hv), if_neg hfits]
  · have hlen : n < len (natural v.toNat) := by
      obtain rfl | hn := Nat.eq_zero_or_pos n
      · simp
      · have hneg : -2 ^ (n - 1) ≤ (0 : Int) := neg_nonpos.2 (by positivity)
        have hbig : ((2 ^ n : Nat) : Int) ≤ v := by
          push_cast
          omega
        rw [← not_le, len_natural_le hn]
        omega
    rw [fromIntegerLen, if_pos hv]
    exact if_pos hlen

/-- Settles O1: in the unsigned range the value is its own residue. -/
theorem unsignedRoundTrip : Obligations.UnsignedRoundTrip := by
  intro v n hn hv
  have hhi : (v : Int) < 2 ^ n := by exact_mod_cast hv
  have hlo : -2 ^ (n - 1) ≤ (v : Int) := (neg_nonpos.2 (by positivity)).trans (Int.natCast_nonneg v)
  obtain ⟨b, hb, -, hu⟩ := fromIntegerLen_ok hn hlo hhi
  rw [Int.emod_eq_of_lt (Int.natCast_nonneg v) hhi] at hu
  exact ⟨b, hb, by exact_mod_cast hu⟩

/-- Settles O2: the residue of a negative value is 2^n more, which reaches the head's weight. -/
theorem twosComplementPattern : Obligations.TwosComplementPattern := by
  intro v n hn hlo hv
  obtain ⟨m, rfl⟩ := Nat.exists_eq_add_of_le' hn
  have hm : (2 : Int) ^ (m + 1) = 2 ^ m + 2 ^ m := by ring
  rw [Nat.add_sub_cancel] at hlo
  obtain ⟨b, hb, hlen, hu⟩ := fromIntegerLen_ok hn hlo (by omega)
  rw [← Int.add_emod_left, Int.emod_eq_of_lt (by omega) (by omega)] at hu
  refine ⟨b, hb, hlen, hu, (head?_eq_true_iff hlen).2 ?_⟩
  zify
  omega

/-- Settles O3: an integer in range is coded at its length, and every other one is refused. -/
theorem fromIntegerFailsExactly : Obligations.FromIntegerFailsExactly := by
  intro v n
  by_cases h : n = 0 ∨ 2 ^ n ≤ v ∨ v < -2 ^ (n - 1)
  · rw [fromIntegerLen_outOfRange h]
    exact ⟨iff_of_true rfl h, fun e he => (Except.error.inj he).symm, fun _ hb => nomatch hb⟩
  · obtain ⟨hn, hhi, hlo⟩ : n ≠ 0 ∧ ¬2 ^ n ≤ v ∧ ¬v < -2 ^ (n - 1) := by simpa only [not_or] using h
    obtain ⟨b, hb, hlen, -⟩ := fromIntegerLen_ok (Nat.pos_of_ne_zero hn) (not_lt.1 hlo) (not_le.1 hhi)
    rw [hb]
    exact ⟨iff_of_false nofun h, nofun, fun c hc => Except.ok.inj hc ▸ hlen⟩

/-- Settles O4: the signed reading of the residue is the value. -/
theorem signedReadingRoundTrip : Obligations.SignedReadingRoundTrip := by
  intro v n hn hlo hhi
  obtain ⟨m, rfl⟩ := Nat.exists_eq_add_of_le' hn
  have hm : (2 : Int) ^ (m + 1) = 2 ^ m + 2 ^ m := by ring
  rw [Nat.add_sub_cancel] at hlo hhi
  obtain ⟨b, hb, hlen, hu⟩ := fromIntegerLen_ok hn hlo (by omega)
  have hres : (uint b : Int) = v % ((2 ^ (m + 1) : Nat) : Int) := by exact_mod_cast hu
  refine ⟨b, hb, ?_⟩
  rw [sint_eq_bmod, hlen, hres, Int.emod_bmod, Int.bmod_eq_of_le] <;> push_cast <;> omega

end Sys2Proof.Bits
end

section
/-! Joins and the byte reversal: a whole vector is a join of groups, which the reversal reverses. -/

namespace Sys2Proof.Bits

/-- A vector of whole groups is the join of its groups (20 R41). -/
theorem exists_join_groups {k : Nat} {v : BitVector} (h : len v % k = 0) : ∃ gs, (∀ g ∈ gs, len g = k) ∧ join gs = v := by
  have hlen : len v = len v / k * k := (Nat.div_mul_cancel (Nat.dvd_of_mod_eq_zero h)).symm
  exact ⟨groups k (len v / k) v, len_of_mem_groups k _ v hlen, join_groups k _ v hlen⟩

/-- The join of two lists is the join of their joins (R96). -/
theorem join_append (gs hs : List BitVector) : join (gs ++ hs) = join gs ++ join hs := List.flatten_append

/-- The byte reversal reverses the list of bytes (R98). -/
theorem reversedBytes_join {gs : List BitVector} (h : ∀ g ∈ gs, len g = 8) :
    reversedBytes (join gs) = .ok (join gs.reverse) := by
  simp [reversedBytes, len_join 8 gs h, groups_join 8 gs h]

/-- Settles O5: a list reversed twice is the list. -/
theorem byteReversalInvolution : Obligations.ByteReversalInvolution := by
  intro x hx
  obtain ⟨gs, hgs, rfl⟩ := exists_join_groups hx
  have hrev : ∀ g ∈ gs.reverse, len g = 8 := fun g hg => hgs g (List.mem_reverse.1 hg)
  exact ⟨_, reversedBytes_join hgs, by rw [reversedBytes_join hrev, List.reverse_reverse]⟩

/-- Settles O7: the join of two vectors is their concatenation, whose reading `uint_append` gives. -/
theorem joinLaws : Obligations.JoinLaws := by
  intro a b c
  have hjoin (v w : BitVector) : join [v, w] = v ++ w := by simp [join]
  simp only [hjoin]
  exact ⟨List.append_assoc a b c, rfl, List.append_nil a, len_append a b, uint_append a b⟩

/-- Settles O8: the reverse of two lists, one after the other. -/
theorem reversalOfJoin : Obligations.ReversalOfJoin := by
  intro a b ha hb
  obtain ⟨gs, hgs, rfl⟩ := exists_join_groups ha
  obtain ⟨hs, hhs, rfl⟩ := exists_join_groups hb
  have hall : ∀ g ∈ gs ++ hs, len g = 8 := fun g hg => (List.mem_append.1 hg).elim (hgs g) (hhs g)
  refine ⟨_, _, reversedBytes_join hgs, reversedBytes_join hhs, ?_⟩
  rw [← join_append, reversedBytes_join hall, List.reverse_append, join_append]

/-- A guarded operation fails exactly where its guard does, with the guard's error. -/
theorem guard_eq_error_iff {α : Type} {c : Prop} [Decidable c] {x : α} {e e' : EncError} :
    (if c then Except.ok x else Except.error e') = Except.error e ↔ e = e' ∧ ¬c := by
  by_cases hc : c <;> simp [hc, eq_comm]

/-- Settles O9: each of the four operations is guarded by its alignment. -/
theorem alignmentChecksExactly : Obligations.AlignmentChecksExactly := fun _ _ =>
  ⟨guard_eq_error_iff, guard_eq_error_iff, guard_eq_error_iff, guard_eq_error_iff⟩

end Sys2Proof.Bits
end

section
/-! Hex texts, digit by digit. -/

namespace Sys2Proof.Bits

/-- A vector is the pattern of its unsigned reading (R101). -/
theorem pattern_uint (v : BitVector) : pattern (len v) (uint v) = v :=
  eq_of_uint_eq (len_pattern _ _) (by rw [uint_pattern, Nat.mod_eq_of_lt (uint_lt v)])

/-- The uppercase digit of a value below 16 is read as its four bits (R88). -/
theorem hexDigit_hexUpper : ∀ n < 16, hexDigit (hexUpper n) = some (pattern 4 n) := by decide

/-- The uppercase digit of four bits is read as those bits (R88, R99). -/
theorem hexDigit_of_nibble {g : BitVector} (h : len g = 4) : hexDigit (hexUpper (uint g)) = some g := by
  rw [hexDigit_hexUpper _ (by simpa [h] using uint_lt g), ← h, pattern_uint]

/-- A hex digit is four bits, whose uppercase digit is its own uppercase (R88). -/
theorem nibble_of_hexDigit {ch : Char} {g : BitVector} (h : hexDigit ch = some g) :
    len g = 4 ∧ hexUpper (uint g) = ch.toUpper := by
  unfold hexDigit at h
  split at h <;> cases h <;> decide

/-- A text is accepted exactly where each of its characters is a hex digit, and its value is the digits' join (R93). -/
theorem fromHexDigits_eq_ok_iff {t : Text} {b : BitVector} :
    fromHexDigits t = .ok b ↔ ∃ gs, List.Forall₂ (fun g ch => hexDigit ch = some g) gs t ∧ join gs = b := by
  induction t generalizing b with
  | nil => simp [fromHexDigits, join]
  | cons ch t ih =>
    simp only [List.forall₂_cons_right_iff]
    constructor
    · intro h
      unfold fromHexDigits at h
      split at h
      · cases h
      · next p hp =>
        split at h
        · next out hout =>
          obtain ⟨gs, hgs, rfl⟩ := ih.1 hout
          exact ⟨p :: gs, ⟨p, gs, hp, hgs, rfl⟩, Except.ok.inj h⟩
        · cases h
    · rintro ⟨_, ⟨g, gs, hg, hgs, rfl⟩, rfl⟩
      rw [fromHexDigits, hg, ih.2 ⟨gs, hgs, rfl⟩]
      rfl

/-- The marker `0x` is no text of hex digits, so a text of hex digits is read whole (R93). -/
theorem fromHex_of_digits {t : Text} {b : BitVector} (h : fromHexDigits t = .ok b) : fromHex t = .ok b := by
  unfold fromHex dropHexMarker
  split
  · cases h
  · exact h

/-- The hex text of a join of nibbles: one digit for each (R99). -/
theorem toHex_join {gs : List BitVector} (h : ∀ g ∈ gs, len g = 4) :
    toHex (join gs) = .ok (gs.map fun g => hexUpper (uint g)) := by
  simp [toHex, len_join 4 gs h, groups_join 4 gs h]

/-- Settles O6: digit by digit, in both directions. -/
theorem hexRoundTrip : Obligations.HexRoundTrip := by
  constructor
  · intro x hx
    obtain ⟨gs, hgs, rfl⟩ := exists_join_groups hx
    refine ⟨_, toHex_join hgs, fromHex_of_digits (fromHexDigits_eq_ok_iff.2 ⟨gs, ?_, rfl⟩)⟩
    exact List.forall₂_map_right_iff.2 (List.forall₂_same.2 fun g hg => hexDigit_of_nibble (hgs g hg))
  · intro t b hb
    obtain ⟨gs, hd, rfl⟩ := fromHexDigits_eq_ok_iff.1 hb
    obtain ⟨hlen, hupper⟩ := (List.forall₂_and_left _ _).1 (hd.imp fun _ _ => nibble_of_hexDigit)
    rw [toHex_join hlen]
    congr 1
    rw [← List.forall₂_eq_eq_eq, List.forall₂_map_left_iff, List.forall₂_map_right_iff]
    exact hupper

/-- `nhex` reads back as its value (R94). -/
@[simp] theorem uint_nhex (s : Nat) : uint (nhex s) = s := by
  rw [nhex, uint_append, uint_zeros, uint_natural, Nat.zero_mul, Nat.zero_add]

/-- `nhex` is the natural representation in whole nibbles (R94). -/
theorem len_nhex (s : Nat) : len (nhex s) = 4 * (s.log2 / 4 + 1) := by
  simp only [nhex, len_append, len_zeros, len_natural]
  omega

/-- `nhex` has more than one digit only where the first is not zero (R94). -/
theorem two_pow_le_of_nhex {s : Nat} (h : 4 < len (nhex s)) : 2 ^ (len (nhex s) - 4) ≤ s := by
  rw [len_nhex] at h ⊢
  have hs : s ≠ 0 := by
    rintro rfl
    simp at h
  exact (Nat.pow_le_pow_right (by decide) (by omega)).trans (Nat.log2_self_le hs)

/-- Settles O10: the result is `nhex` of the sum. -/
theorem offsetHexValue : Obligations.OffsetHexValue := by
  intro hex offset b hb hpos hsum
  obtain ⟨s, hs⟩ := Int.eq_ofNat_of_zero_le hsum
  have hres : fromHexWithOffset hex offset = .ok (nhex s) := by
    simp [fromHexWithOffset, hb, Nat.ne_of_gt hpos, hs]
  have hlen := len_nhex s
  rw [hs]
  refine ⟨nhex s, hres, by rw [uint_nhex], by omega, by omega, fun h => ?_⟩
  rw [uint_nhex]
  exact two_pow_le_of_nhex h

end Sys2Proof.Bits
end

section
/-! The REX table and the addressing policy, in closed form. -/

namespace Sys2Proof.Bits

/-- A byte's bits read as its number. -/
@[simp] theorem uint_byteBits (b : Byte) : uint (byteBits b) = b.toNat := by
  rw [byteBits, uint_pattern, Nat.mod_eq_of_lt b.isLt]

end Sys2Proof.Bits

namespace Sys2Proof.Policy

open Bits

/-- A REX byte is 0x48 with REX.R the second register's group and REX.B the first's (41 R122). -/
theorem rexTab_toNat (first second : Group) :
    (rexTab first second).toNat = 0x48 + 4 * groupBit second + groupBit first := by
  cases first <;> cases second <;> rfl

/-- Settles O12: the byte that `rexFor` looks up reads as its number. -/
theorem rexTableClosedForm : Obligations.RexTableClosedForm := by
  intro reg1 reg2
  rw [rexFor, uint_byteBits, rexTab_toNat]

section
variable {a : Reg}

/-- Number 5 takes the form with a displacement (41 R128). -/
theorem addrMode_of_five (h5 : regNumber a = 5) : addrMode a = (modBits modDisp8, byteBits disp8Zero) := if_pos h5

/-- Number 4 takes the form with a SIB byte (41 R128). -/
theorem addrMode_of_four (h4 : regNumber a = 4) : addrMode a = (modBits modIndirect, byteBits sibNoIndex) := by
  rw [addrMode, if_neg (by omega), if_pos h4]

/-- Every other number takes the plain form (41 R128). -/
theorem addrMode_of_other (h4 : regNumber a ≠ 4) (h5 : regNumber a ≠ 5) : addrMode a = (modBits modIndirect, []) := by
  rw [addrMode, if_neg h5, if_neg h4]
  rfl

end

/-- Settles O15: one case of `addrMode` for each case of the number; the two mod constants are their bits. -/
theorem addressingPolicy : Obligations.AddressingPolicy := fun _ => ⟨addrMode_of_five, addrMode_of_four, addrMode_of_other⟩

end Sys2Proof.Policy
end

section
/-! The immediate size policy: the classes, and the smallest that contains a value. -/

namespace Sys2Proof.Policy

open Safety

/-- The smallest of the five size classes whose range contains the value (41 R123). -/
abbrev IsSmallestClass (k : Nat) (v : Int) : Prop :=
  k ∈ [0, 1, 2, 4, 8] ∧ InSizeClass k v ∧ ∀ j ∈ [0, 1, 2, 4, 8], j < k → ¬InSizeClass j v

/-- No size class contains the value (41 R123). -/
abbrev InNoClass (v : Int) : Prop := ∀ k ∈ [0, 1, 2, 4, 8], ¬InSizeClass k v

/-- A statement about every size class is one about each of the five. -/
theorem forall_class_iff {P : Nat → Prop} : (∀ k ∈ [0, 1, 2, 4, 8], P k) ↔ P 0 ∧ P 1 ∧ P 2 ∧ P 4 ∧ P 8 := by simp

section
variable {k k' : Nat} {v : Int}

/-- A value has one smallest class. -/
theorem IsSmallestClass.unique (h : IsSmallestClass k v) (h' : IsSmallestClass k' v) : k = k' := by
  obtain ⟨hk, hin, hmin⟩ := h
  obtain ⟨hk', hin', hmin'⟩ := h'
  exact le_antisymm (not_lt.1 fun hlt => hmin k' hk' hlt hin') (not_lt.1 fun hlt => hmin' k hk hlt hin)

/-- A value with a smallest class is not outside every class. -/
theorem IsSmallestClass.not_inNoClass (h : IsSmallestClass k v) : ¬InNoClass v := fun hno => hno k h.1 h.2.1

/-- What the size policy can answer: the smallest class, or its one error where there is no class. The tests of `immSize`
are the ranges of the classes from the smallest on, so the tests that failed exclude the smaller classes (41 R123). -/
theorem immSize_cases (v : Int) :
    (∃ k, immSize v = .ok k ∧ IsSmallestClass k v) ∨
      (immSize v = .error .unsupportedImmediateSize ∧ InNoClass v) := by
  unfold immSize
  split_ifs with h0 h1 h2 h4 h8
  · exact .inl ⟨0, rfl, by decide, h0, by simp⟩
  · exact .inl ⟨1, rfl, by decide, h1, forall_class_iff.2 ⟨fun _ => h0, by omega, by omega, by omega, by omega⟩⟩
  · exact .inl ⟨2, rfl, by decide, h2, forall_class_iff.2 ⟨fun _ => h0, fun _ => h1, by omega, by omega, by omega⟩⟩
  · exact .inl ⟨4, rfl, by decide, h4, forall_class_iff.2 ⟨fun _ => h0, fun _ => h1, fun _ => h2, by omega, by omega⟩⟩
  · exact .inl ⟨8, rfl, by decide, h8,
      forall_class_iff.2 ⟨fun _ => h0, fun _ => h1, fun _ => h2, fun _ => h4, by omega⟩⟩
  · exact .inr ⟨rfl, forall_class_iff.2 ⟨h0, h1, h2, h4, h8⟩⟩

theorem immSize_eq_ok_iff : immSize v = .ok k ↔ IsSmallestClass k v := by
  obtain ⟨s, hs, hsmall⟩ | ⟨herr, hno⟩ := immSize_cases v
  · rw [hs, Except.ok.injEq]
    exact ⟨fun h => h ▸ hsmall, hsmall.unique⟩
  · rw [herr]
    exact ⟨nofun, fun h => absurd hno h.not_inNoClass⟩

theorem immSize_eq_error_iff {e : EncError} :
    immSize v = .error e ↔ e = .unsupportedImmediateSize ∧ InNoClass v := by
  obtain ⟨s, hs, hsmall⟩ | ⟨herr, hno⟩ := immSize_cases v
  · rw [hs]
    exact ⟨nofun, fun h => absurd h.2 hsmall.not_inNoClass⟩
  · rw [herr, Except.error.injEq]
    exact ⟨fun h => ⟨h.symm, hno⟩, fun h => h.1.symm⟩

end

/-- Settles O13: `immSize` answers the smallest class, and its error where there is none. -/
theorem immSizeIsSmallestClass : Obligations.ImmSizeIsSmallestClass :=
  fun _ => ⟨fun _ => immSize_eq_ok_iff, fun _ => immSize_eq_error_iff⟩

end Sys2Proof.Policy
end

section
/-! The bytes of the move outputs by the registers' numbers. -/

namespace Sys2Proof.Policy

open Bits

section
variable (a d x : Reg)

/-- A register's field is its number (10_state R21). -/
theorem regField_toNat : (regField a).toNat = regNumber a := by cases a <;> rfl

/-- The REX byte by the groups of the two registers (41 R122). -/
theorem rexByte_eq : rexByte a x = BitVec.ofNat 8 (0x48 + 4 * groupBit (regGroup x) + groupBit (regGroup a)) := by
  rw [rexByte, ← rexTab_toNat, BitVec.ofNat_toNat, BitVec.setWidth_eq]

/-- ModRM's three fields as the number of its byte (30 R59). -/
theorem modRM_eq : ∀ (m : BitVec 2) (reg rm : BitVec 3),
    modRM m reg rm = BitVec.ofNat 8 (0x40 * m.toNat + 8 * reg.toNat + rm.toNat) := by decide

/-- ModRM of two registers, by their numbers (30 R59). -/
theorem modRM_regField (m : BitVec 2) : modRM m (regField x) (regField a) =
    BitVec.ofNat 8 (0x40 * m.toNat + 8 * regNumber x + regNumber a) := by
  rw [modRM_eq, regField_toNat, regField_toNat]

/-- ModRM of the compact move, by the register's number (30 R65). -/
theorem modRM_direct_zero : modRM modDirect 0 (regField d) = BitVec.ofNat 8 (0xC0 + regNumber d) := by
  rw [modRM_eq, regField_toNat]
  rfl

/-- The full move's opcode, by the register's number (30 R64, R66). -/
theorem fullOpcode_regField : fullOpcode (regField d) = BitVec.ofNat 8 (0xB8 + regNumber d) := by
  cases d <;> rfl

/-- The memory operand's ModRM byte: mod 01 for number 5, 00 otherwise (41 R128). -/
def memModRM : Nat := (if regNumber a = 5 then 0x40 else 0) + 8 * regNumber x + regNumber a

/-- The memory operand's trailing byte, if any (41 R128). -/
def memTail : List Byte := if regNumber a = 4 then [0x24#8] else if regNumber a = 5 then [0x00#8] else []

/-- The bytes of a memory operand, over the three forms of the address register's number (41 R128, R131). -/
theorem bytes_memOperand : bytes (memOperand (regbits x) a) = .ok (BitVec.ofNat 8 (memModRM a x) :: memTail a) := by
  by_cases h4 : regNumber a = 4
  · rw [bytes_memOperand_sib x h4, modRM_regField]
    simp [memModRM, memTail, h4, modIndirect, sibNoIndex]
  · by_cases h5 : regNumber a = 5
    · rw [bytes_memOperand_disp8 x h5, modRM_regField]
      simp [memModRM, memTail, h5, modDisp8, disp8Zero]
    · rw [bytes_memOperand_plain x h4 h5, modRM_regField]
      simp [memModRM, memTail, h4, h5, modIndirect]

end

end Sys2Proof.Policy

namespace Sys2Proof.Block

open Policy

/-- The compact move's diagram, byte by byte (30 R65). -/
theorem bytesRI32_ofInt (d : Reg) (v : Int) : bytesRI32 d (BitVec.ofInt 32 v) =
    [BitVec.ofNat 8 (0x48 + groupBit (regGroup d)), 0xC7#8, BitVec.ofNat 8 (0xC0 + regNumber d)] ++
      (List.range 4).map fun k => BitVec.ofNat 8 ((v % 2 ^ 32).toNat / 256 ^ k) := by
  simp only [← byteOf_ofInt, bytesRI32, rexByte_eq, modRM_direct_zero]
  rfl

/-- The full move's diagram, byte by byte (30 R66). -/
theorem bytesOI64_ofInt (d : Reg) (v : Int) : bytesOI64 d (BitVec.ofInt 64 v) =
    [BitVec.ofNat 8 (0x48 + groupBit (regGroup d)), BitVec.ofNat 8 (0xB8 + regNumber d)] ++
      (List.range 8).map fun k => BitVec.ofNat 8 ((v % 2 ^ 64).toNat / 256 ^ k) := by
  simp only [← byteOf_ofInt, ← fullOpcode_regField, bytesOI64, rexByte_eq]
  rfl

/-- Settles O16: the compact and the full form emit their diagrams, whose bytes are the numbers of the statement, and a
value outside the envelope has no size class. -/
theorem movImmOutput : Obligations.MovImmOutput := by
  intro d v
  refine ⟨fun hlo hhi => ?_, fun hc hlo hhi => ?_, fun h => encode_movImm_error d (by omega)⟩
  · rw [← bytesRI32_ofInt]
    exact emits_movImm_compact d ⟨hlo, hhi⟩
  · rw [← bytesOI64_ofInt]
    exact emits_movImm_full d hc ⟨hlo, hhi⟩

/-- Settles O17: store and load share the memory operand, and differ in the opcode. -/
theorem storeAndLoadOutput : Obligations.StoreAndLoadOutput := by
  intro a x
  have hoperand := bytes_memOperand a x
  simp only [← rexByte_eq]
  exact ⟨emits_movStore hoperand, emits_movLoad hoperand⟩

end Sys2Proof.Block
end

section
/-! The decimal numeral read back. -/

namespace Sys2Proof.Block

/-- The value of a decimal digit. -/
def digitValue (c : Char) : Nat := "0123456789".toList.idxOf c

/-- The number that a text of decimal digits spells, least significant digit first. -/
def digitsValue (t : Text) : Nat := Nat.ofDigits 10 (t.map digitValue)

theorem digitsValue_cons (c : Char) (t : Text) : digitsValue (c :: t) = digitValue c + 10 * digitsValue t :=
  Nat.ofDigits_cons

/-- The digit table read back, at the last digit of a number. -/
theorem digitValue_lastDigit (n : Nat) : digitValue ("0123456789".toList.getD (n % 10) '0') = n % 10 :=
  (by decide : ∀ k < 10, digitValue ("0123456789".toList.getD k '0') = k) _ (Nat.mod_lt n (by decide))

/-- The digits of a number that the fuel bounds spell it (42 R148). -/
theorem digitsValue_decimalDigits {fuel n : Nat} (h : n < 10 ^ fuel) : digitsValue (decimalDigits fuel n) = n := by
  induction fuel generalizing n with
  | zero => exact (Nat.lt_one_iff.1 h).symm
  | succ fuel ih =>
    rw [decimalDigits]
    split_ifs with hlt
    · exact (digitsValue_cons _ []).trans ((digitValue_lastDigit n).trans (Nat.mod_eq_of_lt hlt))
    · have htail : n / 10 < 10 ^ fuel := Nat.div_lt_of_lt_mul (by rwa [← Nat.pow_succ'])
      rw [digitsValue_cons, digitValue_lastDigit, ih htail, Nat.mod_add_div]

/-- The fuel of `natText` bounds its number. -/
theorem lt_ten_pow_log2 (n : Nat) : n < 10 ^ (n.log2 + 1) :=
  Nat.lt_log2_self.trans_le (Nat.pow_le_pow_left (by decide) _)

/-- The numeral of a natural number determines it (42 R148). -/
theorem natText_injective : Function.Injective natText := by
  intro n m h
  have hdigits : decimalDigits (n.log2 + 1) n = decimalDigits (m.log2 + 1) m := List.reverse_injective h
  rw [← digitsValue_decimalDigits (lt_ten_pow_log2 n), hdigits, digitsValue_decimalDigits (lt_ten_pow_log2 m)]

/-- The numeral of an integer determines it: the sign separates the negative values, and each sign's numerals are those of
natural numbers (42 R148). -/
theorem dec_injective : Function.Injective dec := by
  intro v w h
  obtain hv | hv := lt_or_ge v 0 <;> obtain hw | hw := lt_or_ge w 0
  · rw [dec, dec, if_pos hv, if_pos hw] at h
    have habs : (-v).toNat = (-w).toNat := natText_injective (List.cons.inj h).2
    omega
  · exact absurd h.symm (dec_ne_of_sign hw hv)
  · exact absurd h (dec_ne_of_sign hv hw)
  · rw [dec, dec, if_neg (not_lt.2 hv), if_neg (not_lt.2 hw)] at h
    have habs : v.toNat = w.toNat := natText_injective h
    omega

/-- Settles O26: after the common first part the two texts are the numerals of the values. -/
theorem renderedValueIsFaithful : Obligations.RenderedValueIsFaithful :=
  fun _ _ _ h => dec_injective (List.append_cancel_left h)

end Sys2Proof.Block
end

section
/-! The bytes of the register-register outputs by the registers' numbers. -/

namespace Sys2Proof.Block

open Policy

/-- The diagram of F-ALU, byte by byte (30 R69). -/
theorem bytesAlu_eq (op : AluOp) (d s : Reg) : bytesAlu op d s =
    [BitVec.ofNat 8 (0x48 + 4 * groupBit (regGroup s) + groupBit (regGroup d)), aluOp op,
      BitVec.ofNat 8 (0xC0 + 8 * regNumber s + regNumber d)] := by
  rw [bytesAlu, rexByte_eq, modRM_regField]
  rfl

/-- Settles O18: the output is the diagram of F-ALU, with the opcode of each operation. -/
theorem aluOutput : Obligations.AluOutput := by
  intro op d s
  have hout : Emits (.alu op d s) (bytesAlu op d s) := emits_alu op d s
  rw [bytesAlu_eq] at hout
  cases op with
  | add | sub | cmp => exact hout

end Sys2Proof.Block
end

section
/-! The set-on-condition compounds: one step of the model against the two machine instructions, and the block's output. -/

namespace Sys2Proof.Machine

open Safety

/-- Where the bytes of a well-formed instruction stand at `rip` and what follows does not complete them to a compound, a
step of a ready machine runs the instruction. -/
theorem step_of_encode {s : State} {i : Instr} {rest : List Byte} (hs : Ready s) (hwf : i.wellFormed = true)
    (hrest : startsCompound i rest = false) (hf : fetchBytes s = encode i ++ rest) : step s = exec i s :=
  step_of_decode hs (hf ▸ decodeOfEncode i rest hwf hrest)

/-- The zeroing move clears the register and passes its 7 bytes (49 R192, R202). -/
theorem exec_zeroing (r : Reg) (s : State) : exec (.movImm32 r 0) s = .next ((s.setReg r 0).advance 7) := rfl

/-- Settles O56: the bytes decode to the compound, whose meaning is the zeroing move's next state with the SETcc part run
on it. -/
theorem compoundIsTwoInstructions : Obligations.CompoundIsTwoInstructions := by
  intro s c r rest hs hf
  have hstep : step s = setCompound c (regGroup r) r s := by
    rw [step_of_encode hs (by simp) (startsCompound_setInstr c _ r rest) hf, exec_setInstr]
  exact ⟨_, _, exec_zeroing r s, rfl, hstep⟩

end Sys2Proof.Machine

namespace Sys2Proof.Block

open Policy

/-- The second opcode byte of a condition (10_state R27). -/
def condOpcode : Cond → Byte
  | .e => 0x94#8
  | .ne => 0x95#8
  | .g => 0x9F#8
  | .l => 0x9C#8
  | .ge => 0x9D#8
  | .le => 0x9E#8

theorem ccOp_eq (c : Cond) : ccOp c = (0x0F#8, condOpcode c) := by cases c <;> rfl

/-- The bytes of a register's SETcc part: 41 for group 1 only, the condition's opcode, and ModRM by the register's number
(44 R175). -/
theorem bytesSetPart_eq (c : Cond) (r : Reg) : bytesSetPart ⟨c, regGroup r, regField r⟩ =
    (match regGroup r with | .g0 => [] | .g1 => [0x41#8]) ++
      [0x0F#8, condOpcode c, BitVec.ofNat 8 (0xC0 + regNumber r)] := by
  rw [bytesSetPart, ccOp_eq, modRM_direct_zero]
  cases regGroup r <;> rfl

/-- Settles O19: the output is the diagram of the compound, the compact move of 0 and then the SETcc part. -/
theorem setOnConditionOutput : Obligations.SetOnConditionOutput := by
  intro c r
  obtain ⟨z, hz, hzb⟩ := emits_movImm_compact r (v := 0) (by decide)
  obtain ⟨out, hout, hob⟩ := emits_setCC c r
  refine ⟨z, out, hz, hout, _, hzb, ?_⟩
  rw [hob, bytesSet, bytesSetPart_eq, ← List.append_assoc]
  cases c <;> rfl

end Sys2Proof.Block
end

section
/-! The return output. -/

namespace Sys2Proof.Block

/-- Settles O20: the output is the opcode of return as one byte, and the byte view of a byte is that byte. -/
theorem retOutput : Obligations.RetOutput :=
  ⟨Bits.byteBits opcRet, rfl, Bits.bytes_byteBits opcRet⟩

end Sys2Proof.Block
end

section
/-! What one instruction can change, said once: it raises a fault and changes only the fault registers, or it completes and
writes what its form writes. The invariant and the frames are read off from this. -/

namespace Sys2Proof.Machine

open Safety

/-- Other registers, flags, `rip` and memory leave the rest as it is. -/
theorem sameApart_update (s : State) (f : RegFile) (fl : Flags) (p : Word) (m : Memory) :
    SameApart s { s with regs := f, flags := fl, rip := p, mem := m } :=
  ⟨⟨rfl, rfl, rfl, rfl, rfl, rfl⟩, rfl, rfl⟩

/-- A raised fault is recorded, CR2 receives the address of a page fault, and nothing else changes (49 R204). -/
theorem raiseFault_records (s : State) (e : TargetException) :
    (s.raiseFault e).exception = some e ∧
    (∀ address code, e = .pageFault address code → (s.raiseFault e).cr2 = address) ∧
    ((∀ address code, e ≠ .pageFault address code) → (s.raiseFault e).cr2 = s.cr2) ∧
    (s.raiseFault e).regs = s.regs ∧ (s.raiseFault e).flags = s.flags ∧ (s.raiseFault e).rip = s.rip ∧
    (s.raiseFault e).mem = s.mem ∧ SameSurroundings s (s.raiseFault e) := by
  refine ⟨rfl, ?_, fun hne => ?_, rfl, rfl, rfl, rfl, rfl, rfl, rfl, rfl, rfl, rfl⟩
  · rintro address code rfl
    rfl
  · cases e with
    | pageFault address code => exact absurd rfl (hne address code)
    | generalProtection | stackFault | alignmentCheck => rfl

/-- CR2 agrees with the fault that has just been raised (49 R204). -/
theorem cr2Agrees_cr2After (e : TargetException) (c : Word) : cr2Agrees (some e) (cr2After e c) = true := by
  cases e with
  | pageFault address code => exact beq_self_eq_true address
  | generalProtection | stackFault | alignmentCheck => rfl

section
variable (c : Cond) (g : Group) (r : Reg)

@[simp] theorem writtenRegs_setInstr : writtenRegs (setInstr c g r) = setWrites r := by cases c <;> cases g <;> rfl
@[simp] theorem writesFlags_setInstr : writesFlags (setInstr c g r) = false := by cases c <;> cases g <;> rfl
@[simp] theorem storeAddress_setInstr (s : State) : storeAddress (setInstr c g r) s = none := by
  cases c <;> cases g <;> rfl

end

/-- A compound may write the register it names and the one its SETcc part selects (49 R201, R202). -/
theorem mem_setWrites (r : Reg) : r ∈ setWrites r ∧ (selectedByte (regGroup r) (regField r)).1 ∈ setWrites r := by
  cases r <;> decide

/-- A write to one listed register leaves the registers outside the list alone. -/
theorem readReg_writeReg_of_notMem {rs : List Reg} {d r : Reg} (hd : d ∈ rs) (hr : r ∉ rs) (f : RegFile) (v : Word) :
    readReg (writeReg f d v) r = readReg f r :=
  readReg_writeReg_other f d r v fun h => hr (h ▸ hd)

/-- The compound's two writes leave the registers outside its list alone (49 R202). -/
theorem setCompound_regs_other {r x : Reg} (hx : x ∉ setWrites r) (f : RegFile) (b : Byte) :
    readReg (writeByteReg (writeReg f r 0) (regGroup r) (regField r) b) x = readReg f x := by
  obtain ⟨hr, hsel⟩ := mem_setWrites r
  obtain ⟨w, hw, -⟩ := writeByteReg_selectedByte (writeReg f r 0) (regGroup r) (regField r) b
  rw [hw, readReg_writeReg_of_notMem hsel hx, readReg_writeReg_of_notMem hr hx]

/-- What an instruction that raises nothing may change: its written registers, the flags where it writes them, the eight
bytes it stores, and `rip`. -/
structure Completes (i : Instr) (s t : State) : Prop where
  apart : SameApart s t
  flags : writesFlags i = false → t.flags = s.flags
  mem : (storeAddress i s = none ∧ t.mem = s.mem) ∨ ∃ ea v, storeAddress i s = some ea ∧ t.mem = writeWord s.mem ea v
  regs : i.wellFormed = true → ∀ r, r ∉ writtenRegs i → readReg t.regs r = readReg s.regs r

/-- An instruction whose next state is a write to one register of its list, before `rip` moves. -/
theorem completes_setReg_advance {i : Instr} {s : State} {d : Reg} (hd : d ∈ writtenRegs i) (hst : storeAddress i s = none)
    (v : Word) (n : Nat) : Completes i s ((s.setReg d v).advance n) :=
  ⟨sameApart_update s _ _ _ _, fun _ => rfl, .inl ⟨hst, rfl⟩, fun _ _ hr => readReg_writeReg_of_notMem hd hr _ _⟩

/-- A store raises the access's fault or completes. -/
theorem storeAt_raises_or_completes {i : Instr} {ea : Word} {base src : Reg} {n : Nat} {s t : State}
    (hst : storeAddress i s = some ea) (h : storeAt ea base src n s = .next t) :
    (∃ e, t = s.raiseFault e) ∨ Completes i s t := by
  obtain ⟨e, -, rfl⟩ | ⟨-, rfl⟩ := storeAt_cases h
  · exact .inl ⟨e, rfl⟩
  · exact .inr ⟨sameApart_update s _ _ _ _, fun _ => rfl, .inr ⟨ea, _, hst, rfl⟩, fun _ _ _ => rfl⟩

/-- A load raises the access's fault or completes. -/
theorem loadAt_raises_or_completes {i : Instr} {ea : Word} {base d : Reg} {n : Nat} {s t : State}
    (hd : d ∈ writtenRegs i) (hst : storeAddress i s = none) (h : loadAt ea base d n s = .next t) :
    (∃ e, t = s.raiseFault e) ∨ Completes i s t := by
  obtain ⟨e, -, rfl⟩ | ⟨-, rfl⟩ := loadAt_cases h
  · exact .inl ⟨e, rfl⟩
  · exact .inr (completes_setReg_advance hd hst _ _)

/-- A return raises a fault or completes. -/
theorem execRet_raises_or_completes {s t : State} (h : execRet s = .next t) :
    (∃ e, t = s.raiseFault e) ∨ Completes .ret s t := by
  obtain ⟨e, -, rfl⟩ | ⟨-, -, rfl⟩ | ⟨-, -, rfl⟩ := execRet_cases h
  · exact .inl ⟨e, rfl⟩
  · exact .inl ⟨_, rfl⟩
  · exact .inr ⟨sameApart_update s _ _ _ _, fun _ => rfl, .inl ⟨rfl, rfl⟩,
      fun _ _ hr => readReg_writeReg_of_notMem (List.mem_singleton_self _) hr _ _⟩

/-- A set-on-condition completes. -/
theorem completes_setCompound {c : Cond} {g : Group} {r : Reg} {s t : State} (h : setCompound c g r s = .next t) :
    Completes (setInstr c g r) s t := by
  cases h
  refine ⟨sameApart_update s _ _ _ _, fun _ => rfl, .inl ⟨storeAddress_setInstr c g r s, rfl⟩, fun hwf x hx => ?_⟩
  obtain rfl : regGroup r = g := by simpa using hwf
  rw [writtenRegs_setInstr] at hx
  exact setCompound_regs_other hx _ _

/-- An instruction raises a fault, which only a form that accesses memory does, or it completes (49 R204). -/
theorem exec_raises_or_completes {i : Instr} {s t : State} (h : exec i s = .next t) :
    (accessesMemory i = true ∧ ∃ e, t = s.raiseFault e) ∨ Completes i s t := by
  induction i using Instr.byForm with
  | movImm32 | movImm64 =>
    cases h
    exact .inr (completes_setReg_advance (List.mem_singleton_self _) rfl _ _)
  | store a x | storeSib a x | storeDisp8 a x => exact (storeAt_raises_or_completes rfl h).imp_left (.intro rfl)
  | load x a | loadSib x a | loadDisp8 x a =>
    exact (loadAt_raises_or_completes (List.mem_singleton_self _) rfl h).imp_left (.intro rfl)
  | add d x | sub d x =>
    cases h
    exact .inr ⟨sameApart_update s _ _ _ _, nofun, .inl ⟨rfl, rfl⟩,
      fun _ _ hr => readReg_writeReg_of_notMem (List.mem_singleton_self d) hr _ _⟩
  | cmp =>
    cases h
    exact .inr ⟨sameApart_update s _ _ _ _, nofun, .inl ⟨rfl, rfl⟩, fun _ _ _ => rfl⟩
  | set c g r => exact .inr (completes_setCompound (exec_setInstr c g r s ▸ h))
  | ret => exact (execRet_raises_or_completes h).imp_left (.intro rfl)

/-- An instruction keeps the invariant: a raised fault sets CR2, and a store keeps the canonical form. -/
theorem exec_keeps_inv {i : Instr} {s t : State} (hs : Inv s) (h : exec i s = .next t) : Inv t := by
  obtain ⟨hmem, hcr2⟩ := hs
  obtain ⟨-, e, rfl⟩ | ⟨⟨-, hc, he⟩, -, hm, -⟩ := exec_raises_or_completes h
  · exact ⟨hmem, cr2Agrees_cr2After e s.cr2⟩
  · refine ⟨?_, by rwa [hc, he]⟩
    obtain ⟨-, hm⟩ | ⟨ea, v, -, hm⟩ := hm
    · rwa [hm]
    · rw [hm]
      exact writeWord_wf ea v hmem

/-- Settles O34: an answer and a lone SETcc part touch neither memory nor the fault registers, and an instruction keeps the
invariant by `exec_keeps_inv`. -/
theorem invariantKept : Obligations.InvariantKept := by
  intro s t hs h
  obtain ⟨rq, -, rfl⟩ | ⟨-, -, ⟨i, -, hi⟩ | ⟨p, e, -, -, rfl⟩⟩ := step_cases h
  · exact hs
  · exact exec_keeps_inv hs hi
  · exact hs

/-- Settles O33: after reset memory lists no byte and no fault waits. -/
theorem invariantAtReset : Obligations.InvariantAtReset := ⟨rfl, rfl⟩

/-- Settles O46: a raised fault is excluded where the form accesses no memory or no fault is recorded after it, and an
instruction that completes leaves the fault registers alone. -/
theorem faultRegisterFrame : Obligations.FaultRegisterFrame := by
  intro i s t h
  obtain ⟨hacc, e, rfl⟩ | ⟨⟨hsame, hc, he⟩, -, -, -⟩ := exec_raises_or_completes h
  · obtain ⟨-, -, -, -, -, -, -, hsame⟩ := raiseFault_records s e
    exact ⟨hsame, fun hno => absurd hacc (by simp [hno]), fun _ hnone => nomatch hnone⟩
  · exact ⟨hsame, fun _ => ⟨he, hc⟩, fun _ _ => hc⟩

/-- Settles O42: an answer and a lone SETcc part change nothing of it, and no instruction does (`faultRegisterFrame`). -/
theorem surroundingsKept : Obligations.SurroundingsKept := by
  intro s t h
  obtain ⟨rq, hrq, rfl⟩ | ⟨hrq, -, ⟨i, -, hi⟩ | ⟨p, e, -, -, rfl⟩⟩ := step_cases h
  · exact ⟨rfl, rfl, rfl, rfl, rfl, fun hnone => nomatch hrq.symm.trans hnone⟩
  · obtain ⟨⟨hq, hresp, hpf, hlin, hac, hcpl⟩, -, -⟩ := faultRegisterFrame i s t hi
    exact ⟨hpf, hlin, hac, hcpl, hq.trans hrq, fun _ => hresp⟩
  · exact ⟨rfl, rfl, rfl, rfl, hrq, fun _ => rfl⟩

/-- Settles O43: a raised fault changes no register. -/
theorem registerFrame : Obligations.RegisterFrame := by
  intro i s t hwf h
  obtain ⟨-, e, rfl⟩ | hdone := exec_raises_or_completes h
  · exact fun _ _ => rfl
  · exact hdone.regs hwf

/-- Settles O44: a raised fault changes no flag. -/
theorem flagFrame : Obligations.FlagFrame := by
  intro i s t hno h
  obtain ⟨-, e, rfl⟩ | hdone := exec_raises_or_completes h
  · rfl
  · exact hdone.flags hno

/-- Settles O45: a raised fault changes no byte, and a store writes the word at its address alone. -/
theorem memoryFrame : Obligations.MemoryFrame := by
  intro i s t hwf h
  obtain ⟨-, e, rfl⟩ | hdone := exec_raises_or_completes h
  · exact ⟨fun _ _ => rfl, fun _ _ _ _ => rfl⟩
  · obtain ⟨hst, hm⟩ | ⟨ea, v, hst, hm⟩ := hdone.mem
    · rw [hst, hm]
      exact ⟨fun _ _ => rfl, fun _ hea => nomatch hea⟩
    · rw [hst, hm]
      refine ⟨nofun, fun ea' hea a ha => ?_⟩
      obtain rfl := Option.some.inj hea
      exact readByte_writeWord_other ea v hwf a ha

end Sys2Proof.Machine
end

section
/-! The checks of an eight-byte access: it raises nothing exactly where they pass (49 R204). -/

namespace Sys2Proof.Machine

open Safety

/-- Every byte of the access has a canonical address (49 R204). -/
abbrev CanonicalAccess (s : State) (ea : Word) : Prop := ∀ k < 8, canonical s.linear (byteAddr ea k) = true

/-- No region of the access's kind covers a byte of it (49 R204). -/
abbrev UncoveredAccess (s : State) (kind : AccessKind) (ea : Word) : Prop :=
  ∀ g ∈ s.pageFaults, ∀ k < 8, regionHits kind (byteAddr ea k) g = false

section
variable {s : State} {kind : AccessKind} {seg : Segment} {ea : Word}

/-- An access that is not canonical raises its segment's fault (49 R204). -/
theorem accessFault_of_not_canonical (h : ¬CanonicalAccess s ea) :
    accessFault s kind seg ea = some (segmentFault seg) := by
  rw [accessFault, if_neg fun hc => h ((canonicalWord_iff _ _).1 hc)]

/-- The page fault of an access is absent exactly where no region covers a byte of it. -/
theorem findPageFault_eq_none_iff : findPageFault s.pageFaults kind ea 0 8 = none ↔ UncoveredAccess s kind ea := by
  simp [findPageFault_none]

/-- A canonical access to a covered byte raises the page fault that is found (49 R204). -/
theorem accessFault_of_pageFault {e : TargetException} (hc : CanonicalAccess s ea)
    (h : findPageFault s.pageFaults kind ea 0 8 = some e) : accessFault s kind seg ea = some e := by
  rw [accessFault, if_pos ((canonicalWord_iff _ _).2 hc), h]

/-- A canonical access to uncovered bytes is checked for its alignment alone (49 R204; log entry 7). -/
theorem accessFault_of_uncovered (hc : CanonicalAccess s ea) (hu : UncoveredAccess s kind ea) :
    accessFault s kind seg ea =
      if s.alignmentCheck ∧ s.cpl = 3 ∧ ea.toNat % 8 ≠ 0 then some .alignmentCheck else none := by
  rw [accessFault, if_pos ((canonicalWord_iff _ _).2 hc), findPageFault_eq_none_iff.2 hu]

/-- A canonical access to a covered byte raises the page fault of a byte and a region of its kind that covers it. -/
theorem accessFault_of_covered (hc : CanonicalAccess s ea) (h : ¬UncoveredAccess s kind ea) :
    ∃ k < 8, ∃ g ∈ s.pageFaults, regionHits kind (byteAddr ea k) g = true ∧
      accessFault s kind seg ea = some (.pageFault (BitVec.ofNat 64 (byteAddr ea k)) g.code) := by
  obtain ⟨e, he⟩ := Option.ne_none_iff_exists'.1 (mt findPageFault_eq_none_iff.1 h)
  obtain ⟨k, g, -, hk, hg, hhit, rfl⟩ := findPageFault_cases he
  exact ⟨k, by omega, g, hg, hhit, accessFault_of_pageFault hc he⟩

/-- An access raises nothing exactly where its checks pass (49 R204). -/
theorem accessFault_eq_none_iff : accessFault s kind seg ea = none ↔ AccessPasses s kind ea := by
  by_cases hc : CanonicalAccess s ea
  · by_cases hu : UncoveredAccess s kind ea
    · rw [accessFault_of_uncovered hc hu]
      have hal : (¬(s.alignmentCheck ∧ s.cpl = 3 ∧ ea.toNat % 8 ≠ 0)) ↔
          (s.alignmentCheck = true → s.cpl = 3 → ea.toNat % 8 = 0) := by simp only [not_and, not_not]
      rw [ite_eq_right_iff, imp_iff_not nofun, hal]
      exact ⟨fun h => ⟨hc, hu, h⟩, fun h => h.2.2⟩
    · obtain ⟨k, -, g, -, -, he⟩ := accessFault_of_covered (seg := seg) hc hu
      rw [he]
      exact iff_of_false nofun fun hp => hu hp.2.1
  · rw [accessFault_of_not_canonical hc]
    exact iff_of_false nofun fun hp => hc hp.1

end

/-- Settles O58: an access is not canonical, or covered, or neither, and each of the three cases has its fault. -/
theorem accessFaultsExactly : Obligations.AccessFaultsExactly := by
  intro s kind seg ea
  refine ⟨accessFault_eq_none_iff, ?_, fun hc => ⟨?_, fun hu hac hcpl hal => ?_⟩, fun address code h => ?_⟩
  · rintro ⟨k, hk, hno⟩
    rw [accessFault_of_not_canonical fun hc => absurd (hc k hk) (by simp [hno])]
    cases seg <;> rfl
  · rintro ⟨g, hg, k, hk, hhit⟩
    have hcov : ¬UncoveredAccess s kind ea := fun hu => absurd (hu g hg k hk) (by simp [hhit])
    obtain ⟨k, -, g, -, -, he⟩ := accessFault_of_covered (seg := seg) hc hcov
    exact ⟨_, _, he⟩
  · rw [accessFault_of_uncovered hc hu, if_pos ⟨hac, hcpl, hal⟩]
  · by_cases hc : CanonicalAccess s ea
    · by_cases hu : UncoveredAccess s kind ea
      · rw [accessFault_of_uncovered hc hu] at h
        split at h <;> cases h
      · obtain ⟨k, hk, g, hg, hhit, he⟩ := accessFault_of_covered (seg := seg) hc hu
        obtain ⟨rfl, rfl⟩ := TargetException.pageFault.inj (Option.some.inj (he.symm.trans h))
        exact ⟨k, hk, g, hg, hhit, by simp [byteAddr], rfl⟩
    · rw [accessFault_of_not_canonical hc] at h
      cases seg <;> cases h

end Sys2Proof.Machine
end

section
/-! The three store forms, the three load forms and ret, each where its access passes and where it faults. -/

namespace Sys2Proof.Machine

open Safety

/-- The one displacement byte is 0, so the disp8 forms address x[base] like the others (49 R196). -/
@[simp] theorem eaDisp8_disp8Zero (f : RegFile) (base : Reg) : eaDisp8 f base disp8Zero = readReg f base := by
  simp [eaDisp8, disp8Zero]

/-- The store forms with their lengths (30 R67, R75, R76). -/
def storeForms (a x : Reg) : List (Instr × Nat) := [(.store a x, 3), (.storeSib a x, 4), (.storeDisp8 a x, 4)]

/-- The load forms with their lengths (30 R68, R75, R76). -/
def loadForms (d a : Reg) : List (Instr × Nat) := [(.load d a, 3), (.loadSib d a, 4), (.loadDisp8 d a, 4)]

/-- Every store form stores at x[addr] (49 R194, R196). -/
theorem exec_of_mem_storeForms {a x : Reg} {q : Instr × Nat} (h : q ∈ storeForms a x) (s : State) :
    exec q.1 s = storeAt (readReg s.regs a) a x q.2 s := by
  simp only [storeForms, List.mem_cons, List.not_mem_nil, or_false] at h
  obtain rfl | rfl | rfl := h
  · rfl
  · rfl
  · exact congrArg (storeAt · a x 4 s) (eaDisp8_disp8Zero s.regs a)

/-- Every load form loads from x[addr] (49 R195, R196). -/
theorem exec_of_mem_loadForms {d a : Reg} {q : Instr × Nat} (h : q ∈ loadForms d a) (s : State) :
    exec q.1 s = loadAt (readReg s.regs a) a d q.2 s := by
  simp only [loadForms, List.mem_cons, List.not_mem_nil, or_false] at h
  obtain rfl | rfl | rfl := h
  · rfl
  · rfl
  · exact congrArg (loadAt · a d 4 s) (eaDisp8_disp8Zero s.regs a)

/-- A write to one register before `rip` moves changes nothing else. -/
theorem setReg_advance_frame (s : State) (d : Reg) (v : Word) (n : Nat) :
    (∀ r, r ≠ d → readReg ((s.setReg d v).advance n).regs r = readReg s.regs r) ∧
    ((s.setReg d v).advance n).flags = s.flags ∧ ((s.setReg d v).advance n).mem = s.mem ∧
    ((s.setReg d v).advance n).rip = s.rip + BitVec.ofNat 64 n ∧ SameApart s ((s.setReg d v).advance n) :=
  ⟨fun r hr => readReg_writeReg_other s.regs d r v hr, rfl, rfl, rfl, sameApart_update s _ _ _ _⟩

section
variable {s : State} {ea : Word}

/-- A store whose access passes writes the word and moves on (49 R194). -/
theorem storeAt_of_passes (base x : Reg) (n : Nat) (h : AccessPasses s .write ea) :
    storeAt ea base x n s = .next ((s.setMem (writeWord s.mem ea (readReg s.regs x))).advance n) := by
  rw [storeAt, accessFault_eq_none_iff.2 h]

/-- A load whose access passes writes the register and moves on (49 R195). -/
theorem loadAt_of_passes (base d : Reg) (n : Nat) (h : AccessPasses s .read ea) :
    loadAt ea base d n s = .next ((s.setReg d (readWord s.mem ea)).advance n) := by
  rw [loadAt, accessFault_eq_none_iff.2 h]

end

/-- Settles O48: the word written at x[addr] reads back byte by byte, and every other byte stays. -/
theorem storesComplete : Obligations.StoresComplete := by
  intro s a x i n hi hwf hpass
  have hexec := (exec_of_mem_storeForms (q := (i, n)) hi s).trans (storeAt_of_passes a x n hpass)
  exact ⟨_, hexec, readByte_writeWord_same _ _ hwf, readByte_writeWord_other _ _ hwf, rfl, rfl, rfl,
    sameApart_update s _ _ _ _⟩

/-- Settles O49: the destination holds the word read at the old x[addr], whose bytes are the bytes in memory. -/
theorem loadsComplete : Obligations.LoadsComplete := by
  intro s d a i n hi hpass
  have hexec := (exec_of_mem_loadForms (q := (i, n)) hi s).trans (loadAt_of_passes a d n hpass)
  refine ⟨_, hexec, fun k hk => ?_, setReg_advance_frame s d _ n⟩
  rw [State.advance_regs, State.setReg_regs, readReg_writeReg_same, byteOf_readWord _ _ k hk]

/-- Settles O57: the stack read passes and its target is canonical, so ret pops and jumps. -/
theorem retCompletes : Obligations.RetCompletes := by
  intro s hpass hcan
  have hexec : exec .ret s =
      .next ((s.setReg .rsp (readReg s.regs .rsp + 8)).jump (readWord s.mem (readReg s.regs .rsp))) := by
    simp [exec, execRet, accessFault_eq_none_iff.2 hpass, hcan]
  exact ⟨_, hexec, byteOf_readWord _ _, readReg_writeReg_same s.regs .rsp _,
    fun r hr => readReg_writeReg_other s.regs .rsp r _ hr, rfl, rfl, sameApart_update s _ _ _ _⟩

/-- Settles O59: in each of the four cases the next state is `s.raiseFault e`. -/
theorem memoryFormsRaise : Obligations.MemoryFormsRaise := by
  intro s e i h
  refine ⟨s.raiseFault e, ?_, raiseFault_records s e⟩
  obtain ⟨a, x, hi, he⟩ | ⟨d, a, hi, he⟩ | ⟨rfl, he⟩ | ⟨rfl, hpass, hcan, rfl⟩ := h
  · obtain ⟨q, hq, rfl⟩ : ∃ q ∈ storeForms a x, q.1 = i := List.mem_map.1 hi
    rw [exec_of_mem_storeForms hq, storeAt, he]
  · obtain ⟨q, hq, rfl⟩ : ∃ q ∈ loadForms d a, q.1 = i := List.mem_map.1 hi
    rw [exec_of_mem_loadForms hq, loadAt, he]
  · simp [exec, execRet, he]
  · simp [exec, execRet, hpass, hcan]

end Sys2Proof.Machine
end

section
/-! The conditions, and the register-register family (49 R197 to R200). -/

namespace Sys2Proof.Machine

open Safety

/-- Settles O60: condition by condition, by what the Boolean operators of `condHolds` mean. -/
theorem conditionTable : Obligations.ConditionTable := by
  intro f
  have hnot : (!f.zf) = true ↔ f.zf = false := by rw [Bool.not_eq_true']
  have heq : (f.sf == f.ovf) = true ↔ f.sf = f.ovf := beq_iff_eq
  have hne : (f.sf != f.ovf) = true ↔ f.sf ≠ f.ovf := bne_iff_ne
  exact ⟨Iff.rfl, hnot, Bool.and_eq_true_iff.trans (and_congr hnot heq), hne, heq,
    Bool.or_eq_true_iff.trans (or_congr_right hne)⟩

/-- Bit 63 of a word is its sign (49 R197). -/
theorem getLsbD_63_iff (w : Word) : w.getLsbD 63 = true ↔ w.toInt < 0 := by
  rw [← BitVec.msb_eq_getLsbD_last w, BitVec.msb_eq_toInt, decide_eq_true_iff]

/-- Parity is even where the low byte has an even number of 1 bits (49 R197). -/
theorem evenParity_iff (w : Word) :
    evenParity w = true ↔ ((List.range 8).countP fun k => w.getLsbD k) % 2 = 0 := by
  rw [evenParity, List.countP_eq_length_filter, beq_iff_eq]

/-- Overflow is the signed result outside the signed range (49 R197, R198). -/
theorem signedOverflow_iff (x : Int) : signedOverflow x = true ↔ ¬(-2 ^ 63 ≤ x ∧ x ≤ 2 ^ 63 - 1) := decide_eq_true_iff

/-- Settles O50: the destination reads back the sum, and each flag is what the rule computes of it. -/
theorem addCompletes : Obligations.AddCompletes := by
  intro s d x a b
  refine ⟨((s.setReg d (a + b)).setFlags (addFlags a b)).advance 3, rfl, ?_⟩
  have hd : readReg (((s.setReg d (a + b)).setFlags (addFlags a b)).advance 3).regs d = a + b :=
    readReg_writeReg_same s.regs d (a + b)
  obtain ⟨hother, -, hmem, hrip, hsame⟩ := setReg_advance_frame s d (a + b) 3
  rw [hd]
  exact ⟨BitVec.toNat_add a b, decide_eq_true_iff, signedOverflow_iff _, getLsbD_63_iff _, decide_eq_true_iff,
    evenParity_iff _, decide_eq_true_iff, hother, hmem, hrip, hsame⟩

/-- The difference of two words as the rule reads it (49 R198). -/
theorem toNat_sub_emod (a b : Word) : ((a - b).toNat : Int) = (a.toNat - b.toNat : Int) % 2 ^ 64 := by
  rw [BitVec.toNat_sub]
  omega

/-- The flags of a word and itself: ZF and PF alone (49 R198). -/
theorem subFlags_self (a : Word) : subFlags a a = ⟨false, true, false, true, false, false⟩ := by
  have hdiff : differenceOf a a = 0 := BitVec.sub_self a
  have hparity : evenParity 0#64 = true := by decide
  simp [subFlags, hdiff, hparity, signedOverflow]

/-- Settles O51: the destination reads back the difference, and each flag is what the rule computes of it. -/
theorem subCompletes : Obligations.SubCompletes := by
  intro s d x a b
  refine ⟨((s.setReg d (a - b)).setFlags (subFlags a b)).advance 3, rfl, ?_⟩
  have hd : readReg (((s.setReg d (a - b)).setFlags (subFlags a b)).advance 3).regs d = a - b :=
    readReg_writeReg_same s.regs d (a - b)
  obtain ⟨hother, -, hmem, hrip, hsame⟩ := setReg_advance_frame s d (a - b) 3
  rw [hd]
  refine ⟨toNat_sub_emod a b, decide_eq_true_iff, signedOverflow_iff _, getLsbD_63_iff _, decide_eq_true_iff,
    evenParity_iff _, decide_eq_true_iff, ?_, hother, hmem, hrip, hsame⟩
  rintro rfl
  exact ⟨BitVec.sub_self a, subFlags_self a⟩

/-- Settles O52: cmp computes the flags of sub and writes no register. -/
theorem cmpCompletes : Obligations.CmpCompletes :=
  fun s _ _ => ⟨_, _, rfl, rfl, rfl, rfl, rfl, rfl, sameApart_update s _ _ _ _⟩

/-- The sign of the difference is wrong exactly on overflow, so SF and OF differ exactly for a smaller first word
(49 R198, R200). -/
theorem subFlags_sf_ne_ovf_iff (a b : Word) : (subFlags a b).sf ≠ (subFlags a b).ovf ↔ a.toInt < b.toInt := by
  have hsf : (subFlags a b).sf = true ↔ (a.toInt - b.toInt).bmod (2 ^ 64) < 0 :=
    BitVec.toInt_sub (x := a) (y := b) ▸ getLsbD_63_iff (a - b)
  have hovf : (subFlags a b).ovf = true ↔ ¬(-2 ^ 63 ≤ a.toInt - b.toInt ∧ a.toInt - b.toInt ≤ 2 ^ 63 - 1) :=
    signedOverflow_iff _
  have ha := a.toInt_lt
  have ha' := a.le_toInt
  have hb := b.toInt_lt
  have hb' := b.le_toInt
  rw [ne_eq, Bool.eq_iff_iff, hsf, hovf, Int.bmod_def]
  omega

/-- ZF is equality (49 R198). -/
theorem subFlags_zf_iff (a b : Word) : (subFlags a b).zf = true ↔ a = b :=
  decide_eq_true_iff.trans (sub_eq_zero (a := a))

/-- Settles O53: each condition is ZF, or SF against OF (`conditionTable`), which are equality and the signed order. -/
theorem compareThenCondition : Obligations.CompareThenCondition := by
  intro s t d x h a b
  obtain rfl : (s.setFlags (subFlags a b)).advance 3 = t := by injection h
  obtain ⟨he, hne, hg, hl, hge, hle⟩ := conditionTable (subFlags a b)
  have hz := subFlags_zf_iff a b
  have hlt := subFlags_sf_ne_ovf_iff a b
  have hnz : (subFlags a b).zf = false ↔ a ≠ b := by rw [← Bool.not_eq_true, hz]
  have hnlt : (subFlags a b).sf = (subFlags a b).ovf ↔ b.toInt ≤ a.toInt := by rw [← not_lt, ← hlt, not_not]
  have heq : a = b ↔ a.toInt = b.toInt := BitVec.toInt_inj.symm
  refine ⟨he.trans hz, hne.trans hnz, hg.trans ?_, hl.trans hlt, hge.trans hnlt, hle.trans ?_⟩
  · rw [hnz, hnlt, ne_eq, heq]
    omega
  · rw [hz, hlt, heq]
    omega

end Sys2Proof.Machine
end

section
/-! The set-on-condition compounds in every state (49 R202). -/

namespace Sys2Proof.Machine

open Safety

/-- The bytes a set-on-condition selects in its own register: the low byte, for every register but rsp, rbp, rsi and rdi
(49 R201). -/
theorem writeByteReg_of_low {r : Reg} (h : r ∉ [Reg.rsp, .rbp, .rsi, .rdi]) (f : RegFile) (b : Byte) :
    writeByteReg f (regGroup r) (regField r) b = writeReg f r (setLowByte (readReg f r) b) := by
  cases hg : regGroup r with
  | g0 =>
    have hn : (regField r).toNat < 4 := by
      revert hg h
      cases r <;> decide
    rw [writeByteReg_low f _ b hn, ← hg, regOf_regField]
  | g1 => rw [writeByteReg_g1, ← hg, regOf_regField]

/-- The low byte of a cleared register makes the whole register 1 or 0 (49 R200, R202). -/
theorem setLowByte_zero_condByte (b : Bool) : setLowByte 0 (condByte b) = if b then 1 else 0 := by
  cases b <;> rfl

/-- For every register but rsp, rbp, rsi and rdi the compound is one register write (49 R202). -/
theorem setCompound_of_low {r : Reg} (h : r ∉ [Reg.rsp, .rbp, .rsi, .rdi]) (c : Cond) (s : State) :
    setCompound c (regGroup r) r s =
      .next ((s.setReg r (if condHolds c s.flags then 1 else 0)).advance (10 + groupBit (regGroup r))) := by
  have hregs : writeByteReg (writeReg s.regs r 0) (regGroup r) (regField r) (condByte (condHolds c s.flags)) =
      writeReg s.regs r (if condHolds c s.flags then 1 else 0) := by
    rw [writeByteReg_of_low h, readReg_writeReg_same, writeReg_writeReg_same, setLowByte_zero_condByte]
  have hrip : s.rip + 7#64 + BitVec.ofNat 64 (setPartLength (regGroup r)) =
      s.rip + BitVec.ofNat 64 (10 + groupBit (regGroup r)) := by
    cases regGroup r <;> exact BitVec.add_assoc _ _ _
  simp only [setCompound, runSetPart, State.advance, State.setReg, hregs, hrip]

/-- Settles O54: the compound is one register write. -/
theorem setOnConditionCompletes : Obligations.SetOnConditionCompletes := by
  intro s c r hr
  exact ⟨_, (exec_setInstr c _ r s).trans (setCompound_of_low hr c s), readReg_writeReg_same s.regs r _,
    setReg_advance_frame s r _ _⟩

/-- rsp, rbp, rsi and rdi with the registers whose high byte their numbers select without REX (49 R201). -/
theorem highByteReg_pairs : ∀ p ∈ [(Reg.rsp, Reg.rax), (.rbp, .rcx), (.rsi, .rdx), (.rdi, .rbx)],
    4 ≤ (regField p.1).toNat ∧ highByteReg (regField p.1) = p.2 ∧ p.1 ≠ p.2 := by decide

/-- Settles O55: the zeroing move writes the named register, and the SETcc part the high byte of the other. -/
theorem setOnConditionHighByte : Obligations.SetOnConditionHighByte := by
  intro s c r h hp
  obtain ⟨hn, hh, hne⟩ : 4 ≤ (regField r).toNat ∧ highByteReg (regField r) = h ∧ r ≠ h := highByteReg_pairs (r, h) hp
  have hregs : (runSetPart ⟨c, .g0, regField r⟩ ((s.setReg r 0).advance 7)).regs =
      writeReg (writeReg s.regs r 0) h (setHighByte (readReg s.regs h) (condByte (condHolds c s.flags))) := by
    rw [runSetPart_regs, writeByteReg_high _ _ _ hn, hh, State.advance_regs, State.setReg_regs,
      readReg_writeReg_other _ _ _ _ hne.symm]
    rfl
  refine ⟨_, exec_setInstr c .g0 r s, ?_, ?_, ?_, ?_, fun x hxr hxh => ?_, rfl, rfl, BitVec.add_assoc _ _ _,
    sameApart_update s _ _ _ _⟩ <;> rw [hregs]
  · rw [readReg_writeReg_other _ _ _ _ hne, readReg_writeReg_same]
  · rw [readReg_writeReg_same, setHighByte_high]
    rfl
  · rw [readReg_writeReg_same, setHighByte_low]
  · rw [readReg_writeReg_same, setHighByte_rest]
  · rw [readReg_writeReg_other _ _ _ _ hxh, readReg_writeReg_other _ _ _ _ hxr]

end Sys2Proof.Machine
end

section
/-! What a step of the target runs: the instruction at `rip`, from the block's output to its effect. -/

namespace Sys2Proof.Machine

open Safety

/-- Settles O37: this is `step_of_decode`. -/
theorem stepRunsDecoded : Obligations.StepRunsDecoded := fun _ _ hs hd => step_of_decode hs hd

/-- With a fault that waits for delivery the target stops (log entry 6). -/
theorem step_of_exception {s : State} {e : TargetException} (hq : s.request = none) (he : s.exception = some e) :
    step s = .fault (.undelivered e) := by
  simp [step, hq, he]

/-- On bytes that are no output form and no SETcc part the target stops (log entry 16). -/
theorem step_of_undescribed {s : State} {e : DecodeError} (hs : Ready s) (hd : decode (fetchBytes s) = .error e)
    (hp : decodeSetPart (fetchBytes s) = none) : step s = .refused (.undescribed e) := by
  simp [step, hs.1, hs.2, runTarget, hd, hp]

/-- Settles O39: one stop for a waiting fault, one for bytes that nothing describes. -/
theorem targetStopsByName : Obligations.TargetStopsByName :=
  ⟨fun _ _ hq he => step_of_exception hq he, fun _ _ hs hd hp => step_of_undescribed hs hd hp⟩

/-- Settles O47: both forms are one register write; sign extension keeps the signed reading. -/
theorem immediateLoadsComplete : Obligations.ImmediateLoadsComplete := by
  intro s d
  refine ⟨fun imm => ⟨_, rfl, ?_, setReg_advance_frame s d (imm.signExtend 64) 7⟩,
    fun imm => ⟨_, rfl, readReg_writeReg_same s.regs d imm, setReg_advance_frame s d imm 10⟩⟩
  rw [State.advance_regs, State.setReg_regs, readReg_writeReg_same, BitVec.toInt_signExtend_of_le (by decide)]

end Sys2Proof.Machine

namespace Sys2Proof.Block

open Machine Policy Safety

/-- The byte view of the block's output is the encoding of the descriptor's row, and the row is well formed. -/
theorem bytes_eq_encode {d : Descriptor} {out : BitVector} {bs : List Byte} {i : Instr}
    (hout : encode d = .ok out) (hbs : Bits.bytes out = .ok bs) (hform : formOf d = .ok i) :
    bs = Sys2Proof.encode i ∧ i.wellFormed = true := by
  obtain ⟨⟨out', hout', hbytes⟩, hemitted⟩ := emits_of_formOf hform
  obtain rfl := Except.ok.inj (hout.symm.trans hout')
  exact ⟨Except.ok.inj (hbs.symm.trans hbytes), wellFormed_of_emitted hemitted⟩

/-- Settles O40: the output is the encoding of the descriptor's row, which the decoder reads back (`step_of_encode`). -/
theorem emittedBytesRun : Obligations.EmittedBytesRun := by
  intro s d out bs rest i hout hbs hform hs hf hrest
  obtain ⟨rfl, hwf⟩ := bytes_eq_encode hout hbs hform
  exact step_of_encode hs hwf hrest hf

/-- A compact value's pattern is 0 only for 0 (41 R123). -/
theorem eq_zero_of_ofInt_compact {v : Int} (h : CompactValue v) (h0 : BitVec.ofInt 32 v = 0) : v = 0 := by
  rw [← toInt_ofInt_compact h, h0]
  rfl

/-- A 64-bit pattern is its value modulo 2^64 (49 R193). -/
theorem toNat_ofInt_64 (v : Int) : ((BitVec.ofInt 64 v).toNat : Int) = v % 2 ^ 64 := by
  rw [BitVec.toNat_ofInt]
  omega

/-- Sign extension of a compact value's pattern is the value's 64-bit pattern (49 R192). -/
theorem signExtend_ofInt_compact {v : Int} (h : CompactValue v) :
    (BitVec.ofInt 32 v).signExtend 64 = BitVec.ofInt 64 v := by
  rw [BitVec.signExtend, toInt_ofInt_compact h]

/-- The row of a move-immediate loads the value's 64-bit pattern, and only the compact zero can begin a compound
(41 R125; 49 R192, R193). -/
theorem movImm_row {d : Reg} {v : Int} {i : Instr} (h : formOf (.movImm d v) = .ok i) :
    (∀ s, exec i s = loadImmediate d (BitVec.ofInt 64 v) (formLength i) s) ∧
    ∀ rest, (v = 0 → setPartFor d rest = none) → startsCompound i rest = false := by
  rw [formOf] at h
  split_ifs at h with hc <;> obtain rfl := Except.ok.inj h
  · refine ⟨fun s => congrArg (loadImmediate d · 7 s) (signExtend_ofInt_compact hc), fun rest hnone => ?_⟩
    have hset : BitVec.ofInt 32 v = 0 → setPartFor d rest = none := fun h0 => hnone (eq_zero_of_ofInt_compact hc h0)
    simpa [startsCompound] using hset
  · exact ⟨fun _ => rfl, fun _ _ => rfl⟩

/-- Settles O41: the step is the row's register write of the value's 64-bit pattern (`movImm_row`). -/
theorem movImmBytesLoadTheValue : Obligations.MovImmBytesLoadTheValue := by
  intro s d v out bs rest hout hbs hs hf hzero
  obtain ⟨i, hform, -, -⟩ := (blockEmitsItsForm (.movImm d v)).2 out hout
  obtain ⟨hexec, hrest⟩ := movImm_row hform
  have hlen : bs.length = formLength i := by rw [(bytes_eq_encode hout hbs hform).1, length_encode]
  have hstep := emittedBytesRun s _ out bs rest i hout hbs hform hs hf (hrest rest hzero)
  refine ⟨_, hstep.trans (hexec s), ?_, hlen ▸ setReg_advance_frame s d _ _⟩
  rw [State.advance_regs, State.setReg_regs, readReg_writeReg_same, toNat_ofInt_64]

end Sys2Proof.Block
end

section
/-! Where the block's output is an error. -/

namespace Sys2Proof.Block

open Policy Safety

/-- Outside every size class is outside the envelope: the envelope is the class of 8 bytes, and outside it the policy fails
(41 R123). -/
theorem inNoClass_iff_not_encodable {v : Int} : InNoClass v ↔ ¬EncodableValue v :=
  ⟨fun hno => hno 8 (by decide), fun h => (immSize_eq_error_iff.1 (immSize_of_not_encodable h)).2⟩

/-- Outside the envelope is above its upper bound or below its lower one (60 R219). -/
theorem not_encodable_iff {v : Int} : ¬EncodableValue v ↔ 2 ^ 64 - 1 < v ∨ v < -2 ^ 63 := by
  omega

/-- The one descriptor without a row is a move of a value outside the envelope (41 R123; 60 R221). -/
theorem formOf_eq_error_iff {d : Descriptor} {e : EncError} :
    formOf d = .error e ↔
      e = .unsupportedImmediateSize ∧ ∃ dst v, d = .movImm dst v ∧ ¬EncodableValue v := by
  constructor
  · intro h
    cases d with
    | movImm dst v =>
      rw [formOf] at h
      split_ifs at h with hc he
      exact ⟨(Except.error.inj h).symm, dst, v, rfl, he⟩
    | movStore a x | movLoad x a =>
      rw [formOf] at h
      split_ifs at h
    | alu op d s => cases op <;> cases h
    | setCC | ret => cases h
  · rintro ⟨rfl, dst, v, rfl, he⟩
    rw [formOf, if_neg (by omega), if_neg he]

/-- Settles O21: the policy fails outside every class, which is outside the envelope (`immSize_eq_error_iff`), and the
block fails where the descriptor has no row (`blockEmitsItsForm`). -/
theorem encodeFailsExactly : Obligations.EncodeFailsExactly := by
  refine ⟨fun v => ?_, fun d e => ?_⟩
  · rw [immSize_eq_error_iff, inNoClass_iff_not_encodable, not_encodable_iff]
    exact and_iff_right rfl
  · rw [(blockEmitsItsForm d).1 e, formOf_eq_error_iff]
    simp only [not_encodable_iff]

end Sys2Proof.Block
end

section
/-! The state after reset: its registers, and the accesses that pass in it (70 R236; log entries 4, 8, 9). -/

namespace Sys2Proof.Machine

open Safety

/-- Every register but rsp is 0 after reset (log entry 4). -/
theorem readReg_reset_of_ne_rsp {r : Reg} (h : r ≠ .rsp) : readReg RegFile.reset r = 0 := by
  cases r
  case rsp => exact absurd rfl h
  all_goals rfl

/-- With no fault region and alignment checking off, an access passes exactly where it is canonical (49 R204). -/
theorem accessPasses_iff_canonical {s : State} {kind : AccessKind} {ea : Word} (hpf : s.pageFaults = [])
    (hac : s.alignmentCheck = false) : AccessPasses s kind ea ↔ CanonicalAccess s ea := by
  simp [AccessPasses, hpf, hac]

/-- Settles O32: the reset values, read off; after reset no region faults and alignment checking is off, so a canonical
access passes (`accessPasses_iff_canonical`). -/
theorem resetStart : Obligations.ResetStart :=
  ⟨⟨rfl, rfl⟩, rfl, fun _ => readReg_reset_of_ne_rsp, rfl, fun _ => rfl,
    fun _ _ hcan => (accessPasses_iff_canonical rfl rfl).2 hcan⟩

end Sys2Proof.Machine
end
